-- ==== Sys2Proof/Word.lean ====
section
/-! DEFINITION. The value types of 00_scope.md R2, R4 and R6: bytes, words, host addresses, blocks and key words. -/

namespace Sys2Proof

/-- An unsigned 8-bit value (R6). -/
abbrev Byte := BitVec 8

/-- An unsigned 32-bit value (R2, R6). `+` and `-` on it are modulo 2^32. -/
abbrev Word := BitVec 32

/-- A host address, 16 bits wide (R4). -/
abbrev Addr := BitVec 16

/-- A block read as two words `v[0]`, `v[1]` (R2). -/
structure Block where
  v0 : Word
  v1 : Word
  deriving DecidableEq, Repr

/-- The four key words `k[0..3]` (R2, R25). -/
abbrev KeyWords := Vector Word 4

/-- Word-wise XOR of two blocks: lane 0 with lane 0, lane 1 with lane 1 (42_modes.md R115). -/
def Block.xor (a b : Block) : Block := ⟨a.v0 ^^^ b.v0, a.v1 ^^^ b.v1⟩

end Sys2Proof
end

