-- ==== Sys2Proof/Syntax.lean ====
section
/-! DEFINITION. The commands of XTEA-CORE-CMD version 1 (30_encoding.md), one constructor per row of the opcode table,
and the raw fields of a command byte (R60). -/

namespace Sys2Proof

/-- The operation a command performs (R61). -/
inductive Op where
  | encrypt
  | decrypt
  | encryptBlock
  | decryptBlock
  deriving DecidableEq, Repr

/-- The mode of operation of ENCRYPT and DECRYPT (R62). -/
inductive Mode where
  | ecb
  | cbc
  deriving DecidableEq, Repr

/-- The six commands of R68. `skip` is SKIP (R63: no padding is added or stripped), `iv` is IVEN (R64: the IV register
is supplied; no effect in ECB). -/
inductive Instr where
  /-- ENC.ECB, R140. -/
  | encEcb (skip iv : Bool)
  /-- ENC.CBC, R141. -/
  | encCbc (skip iv : Bool)
  /-- DEC.ECB, R142. -/
  | decEcb (skip iv : Bool)
  /-- DEC.CBC, R143. -/
  | decCbc (skip iv : Bool)
  /-- ENCB, R144. -/
  | encb
  /-- DECB, R145. -/
  | decb
  deriving DecidableEq, Repr

/-- The fields of a command byte as R60 lays them out, legal or not. -/
structure Fields where
  /-- CMD[1:0]. -/
  op : BitVec 2
  /-- CMD[3:2]. -/
  mode : BitVec 2
  /-- CMD[4]. -/
  skip : Bool
  /-- CMD[5]. -/
  iven : Bool
  /-- CMD[7:6]. -/
  rsv : BitVec 2
  deriving DecidableEq, Repr

end Sys2Proof
end

