-- ==== Sys2Proof/WellFormed.lean ====
section
/-! DEFINITION. Which fields form a legal command (30_encoding.md R62, R65, R66). A term of `Instr` has no field that
could be out of range, so the checks stand on the raw `Fields` of a command byte, which can be ill-formed. -/

namespace Sys2Proof

/-- RSV = CMD[7:6] must be 00 (R65). -/
def Fields.reservedClear (f : Fields) : Bool := f.rsv == 0b00#2

/-- OP is a block operation, ENCRYPT_BLOCK or DECRYPT_BLOCK (R61). -/
def Fields.isBlockOp (f : Fields) : Bool := f.op == 0b10#2 || f.op == 0b11#2

/-- For ENCRYPT and DECRYPT, MODE is ECB or CBC (R62). -/
def Fields.modeDefined (f : Fields) : Bool := f.isBlockOp || f.mode == 0b00#2 || f.mode == 0b01#2

/-- For the block operations, IVEN, SKIP and MODE must all be 0 (R66). -/
def Fields.blockFieldsClear (f : Fields) : Bool := !f.isBlockOp || (f.mode == 0b00#2 && !f.skip && !f.iven)

/-- The fields of a legal command byte (R62, R65, R66). -/
def Fields.wellFormed (f : Fields) : Bool := f.reservedClear && f.modeDefined && f.blockFieldsClear

/-- The fields a command stands for (the OP, MODE, SKIP and IVEN columns of R68). -/
def Instr.fields : Instr → Fields
  | .encEcb s v => ⟨0b00#2, 0b00#2, s, v, 0b00#2⟩
  | .encCbc s v => ⟨0b00#2, 0b01#2, s, v, 0b00#2⟩
  | .decEcb s v => ⟨0b01#2, 0b00#2, s, v, 0b00#2⟩
  | .decCbc s v => ⟨0b01#2, 0b01#2, s, v, 0b00#2⟩
  | .encb => ⟨0b10#2, 0b00#2, false, false, 0b00#2⟩
  | .decb => ⟨0b11#2, 0b00#2, false, false, 0b00#2⟩

/-- A command is well-formed when its fields are. -/
def Instr.wellFormed (i : Instr) : Bool := i.fields.wellFormed

end Sys2Proof
end

