-- ==== Sys2Proof/Decode.lean ====
section
/-! DEFINITION. Decoding a command byte (30_encoding.md R60, R69), total on all 256 values, the encoder after it (R68),
and the assembler spelling of a command (R72). -/

namespace Sys2Proof

/-- The fields of a command byte (R60). -/
def fieldsOf (c : Byte) : Fields where
  op := c.extractLsb' 0 2
  mode := c.extractLsb' 2 2
  skip := c.getLsbD 4
  iven := c.getLsbD 5
  rsv := c.extractLsb' 6 2

/-- The decode function of R69; `none` is its ConfigErr. -/
def decode (c : Byte) : Option Instr :=
  let f := fieldsOf c
  if !f.reservedClear then none
  else if f.op == 0b10#2 then (if f.blockFieldsClear then some .encb else none)
  else if f.op == 0b11#2 then (if f.blockFieldsClear then some .decb else none)
  else if f.mode == 0b00#2 then
    some (if f.op == 0b00#2 then .encEcb f.skip f.iven else .decEcb f.skip f.iven)
  else if f.mode == 0b01#2 then
    some (if f.op == 0b00#2 then .encCbc f.skip f.iven else .decCbc f.skip f.iven)
  else none

/-- The host's reading of a table row: an instruction whose bits are `w`, bit 0 the least significant bit of the one
command byte; there is no second byte (R60, R71). -/
def decodeTableWord (nbits w : Nat) : Option Instr :=
  let bits := w % 2 ^ nbits
  if bits < 256 then decode (BitVec.ofNat 8 bits) else none

/-- The byte with the given match value, plus 0x10 for SKIP and 0x20 for IVEN (R68, R72). -/
def commandByte (base : Byte) (skip iv : Bool) : Byte :=
  base ||| (if skip then 0x10#8 else 0x00#8) ||| (if iv then 0x20#8 else 0x00#8)

/-- The byte of a command (R68, R72). -/
def encode : Instr → Byte
  | .encEcb s v => commandByte 0x00#8 s v
  | .encCbc s v => commandByte 0x04#8 s v
  | .decEcb s v => commandByte 0x01#8 s v
  | .decCbc s v => commandByte 0x05#8 s v
  | .encb => commandByte 0x02#8 false false
  | .decb => commandByte 0x03#8 false false

/-- The commands in the order of R68's list of legal bytes. -/
def allCommands : List Instr :=
  [.encEcb false false, .encEcb true false, .encEcb false true, .encEcb true true,
   .encCbc false false, .encCbc true false, .encCbc false true, .encCbc true true]
  ++ [.decEcb false false, .decEcb true false, .decEcb false true, .decEcb true true,
   .decCbc false false, .decCbc true false, .decCbc false true, .decCbc true true]
  ++ [.encb, .decb]

/-- The optional suffixes of R72, `.SKIP` first. -/
def suffixes (skip iv : Bool) : String :=
  (if skip then ".SKIP" else "") ++ (if iv then ".IV" else "")

/-- How a command is written (R72). -/
def spelling : Instr → String
  | .encEcb s v => "ENC.ECB" ++ suffixes s v
  | .encCbc s v => "ENC.CBC" ++ suffixes s v
  | .decEcb s v => "DEC.ECB" ++ suffixes s v
  | .decCbc s v => "DEC.CBC" ++ suffixes s v
  | .encb => "ENCB"
  | .decb => "DECB"

/-- The byte of a spelling; a spelling outside R72's grammar has none. -/
def assemble (text : String) : Option Byte :=
  (allCommands.find? fun i => spelling i == text).map encode

end Sys2Proof
end

