-- ==== Sys2Proof/Config.lean ====
section
/-! DEFINITION. What an implementation fixes (MSG_CAP, 00_scope.md R3) and the free values that stand for UNSPEC
(00_scope.md R6, 93_implementation_defined.md X1 to X6). None of these constants has a body, so no proof can use a value
of one. -/

namespace Sys2Proof

/-- The legal capacities of the IN buffer (R3): the number `n` stands for MSG_CAP = 8 * (n + 1), a multiple of 8 with
8 <= MSG_CAP <= 16376. -/
abbrev Capacity := Fin 2047

/-- MSG_CAP in bytes. -/
def Capacity.bytes (c : Capacity) : Nat := 8 * (c.val + 1)

/-- The capacity of the implementation at hand: the open parameter of R3 (assumption 1). -/
opaque Config.capacity : Capacity

/-- An UNSPEC byte: the value that draw number `draw` gives at place `place` (assumption 5). -/
opaque Config.unspecByte : (draw place : Nat) → Byte

/-- An UNSPEC word (assumption 5). -/
opaque Config.unspecWord : (draw place : Nat) → Word

/-- An UNSPEC natural number; its user keeps it in the range of the register it fills (assumption 7). -/
opaque Config.unspecNat : (draw place : Nat) → Nat

end Sys2Proof
end

