-- ==== Sys2Proof/Machine/State.lean ====
section
/-! DEFINITION. The state of XTEA-CORE (10_state.md), as plain data, and its value right after reset
(70_reset_and_hazards.md R200). -/

namespace Sys2Proof.Machine

/-- STATUS.STATE (R15, R16). -/
inductive EngineState where
  | idle
  | busy
  | done
  | error
  deriving DecidableEq, Repr

/-- The causes of STATUS.ERR (R17, 60_exceptions.md R170); `none` is code 0. Codes 5, 6 and 7 are never produced, and
no constructor stands for them (assumption 17). -/
inductive ErrorCause where
  | none
  | configuration
  | alignment
  | bounds
  | padding
  deriving DecidableEq, Repr

/-- The fields of STATUS (R15). The reserved bits are not stored: they read as 0. -/
structure Status where
  state : EngineState
  err : ErrorCause
  wdrop : Bool
  deriving DecidableEq, Repr

/-- What a host transaction returns (20_memory.md R41, R42). -/
inductive Reply where
  /-- The byte an `RD` returns. -/
  | data (b : Byte)
  /-- `OK`, what a `WR` to a mapped location returns. -/
  | ok
  /-- `BUSERR`, at an unmapped address. -/
  | busErr
  deriving DecidableEq, Repr

/-- One scheduled step (00_scope.md R5): a HOST transaction, a turn of the ENGINE, or RESET. -/
inductive Event where
  /-- `RD a`. -/
  | rd (a : Addr)
  /-- `WR a, d`. -/
  | wr (a : Addr) (d : Byte)
  /-- The ENGINE's turn: its complete step, where that is enabled. -/
  | engine
  /-- RESET. -/
  | reset
  deriving DecidableEq, Repr

/-- The known bytes of a buffer, keyed by index, indices strictly rising. A byte that is not listed is UNSPEC
(assumption 6). -/
abbrev Memory := List Host.Cell

/-- The state of the machine. The first group is host-visible, the second internal, the third the host port and the
schedule, the last the model's own bookkeeping of free values. -/
structure State where
  /-- MSG_CAP (R3); no step changes it. -/
  capacity : Capacity
  /-- KEY (R12). -/
  key : Vector Byte 16
  /-- IV (R13). -/
  iv : Vector Byte 8
  /-- CMD (R14). -/
  cmd : Byte
  /-- STATUS (R15). -/
  status : Status
  /-- IRQ_EN (R20). -/
  irqEn : Byte
  /-- IN_LEN (R21). -/
  inLen : Word
  /-- OUT_LEN (R22). -/
  outLen : Word
  /-- The bytes of IN written since reset (R23). -/
  inMem : Memory
  /-- The bytes of OUT that hold a result (R24). -/
  outMem : Memory
  /-- KW (R25). -/
  kw : KeyWords
  /-- CHAIN (R26). -/
  chain : Block
  /-- V (R27). -/
  v : Block
  /-- SUM (R27). -/
  sum : Word
  /-- RND (R27). -/
  rnd : Nat
  /-- PREV (R27). -/
  prev : Block
  /-- OPC (R27). -/
  opc : Byte
  /-- NLEN (R27). -/
  nlen : Nat
  /-- PADN (R27). -/
  padn : Nat
  /-- NBLK (R27). -/
  nblk : Nat
  /-- BLK (R27, R11). -/
  blk : Nat
  /-- The steps scheduled next, in order (20_memory.md R50; assumption 3). -/
  events : List Event
  /-- What the last host transaction returned (20_memory.md R41; assumption 9). -/
  reply : Option Reply
  /-- The number of the next free draw (assumption 5). -/
  drawn : Nat
  /-- The draw an unlisted byte of IN reads from (assumption 6). -/
  inDraw : Nat
  /-- The draw an unlisted byte of OUT reads from (assumption 6). -/
  outDraw : Nat
  deriving DecidableEq, Repr

/-- Why a step can stop the model. The errors of 60_exceptions.md are no faults: the machine goes on with STATUS.STATE =
ERROR. -/
inductive Fault where
  /-- The word codec was asked for bytes beyond the end of its buffer (40_word_codec.md R82). Raised by the codec's users
  in Machine/Driver.lean. Safe: R82 says no use of the codec does this, and no state that meets `State.Inv` does. -/
  | codecBounds
  /-- The engine is BUSY and OPC is no legal command (42_modes.md R110). Raised by the complete step in
  Machine/HostPort.lean. Safe: only a decoded legal command makes the engine BUSY, and no state that meets `State.Inv`
  raises it. -/
  | noCommand
  deriving DecidableEq, Repr

/-- Why an instruction can have no meaning. -/
inductive Refusal where
  /-- Raised by an arm of `exec` for an instruction whose meaning is not written yet. Safe. No arm does. -/
  | notModelled (mnemonic : String)
  deriving DecidableEq, Repr

/-- The outcome of a step or of a part of one. -/
abbrev Result := Host.Outcome State Fault Refusal

/-- Every internal register UNSPEC, within its range (R27, R28): draw `d` (assumption 7). -/
def State.withUnspecInternals (d : Nat) (s : State) : State :=
  let nblk := Config.unspecNat d 3 % (s.capacity.bytes / 8 + 2)
  { s with
    kw := #v[Config.unspecWord d 0, Config.unspecWord d 1, Config.unspecWord d 2, Config.unspecWord d 3]
    chain := ⟨Config.unspecWord d 4, Config.unspecWord d 5⟩
    v := ⟨Config.unspecWord d 6, Config.unspecWord d 7⟩
    sum := Config.unspecWord d 8
    rnd := Config.unspecNat d 0 % 33
    prev := ⟨Config.unspecWord d 9, Config.unspecWord d 10⟩
    opc := Config.unspecByte d 0
    nlen := Config.unspecNat d 1 % (s.capacity.bytes + 1)
    padn := Config.unspecNat d 2 % 9
    nblk
    blk := Config.unspecNat d 4 % (nblk + 1) }

/-- Every register at zero, nothing listed in IN or OUT: the value the spec gives the host-visible registers at reset
(R200), with IN and OUT reading from draws `d` and `d + 1`. -/
def State.cleared (capacity : Capacity) (d : Nat) (events : List Event) : State where
  capacity
  key := Vector.replicate 16 0
  iv := Vector.replicate 8 0
  cmd := 0
  status := ⟨.idle, .none, false⟩
  irqEn := 0
  inLen := 0
  outLen := 0
  inMem := []
  outMem := []
  kw := Vector.replicate 4 0
  chain := ⟨0, 0⟩
  v := ⟨0, 0⟩
  sum := 0
  rnd := 0
  prev := ⟨0, 0⟩
  opc := 0
  nlen := 0
  padn := 0
  nblk := 0
  blk := 0
  events
  reply := none
  drawn := d + 3
  inDraw := d
  outDraw := d + 1

/-- The state RESET leaves (R200): every host-visible register at its reset value, IN and OUT UNSPEC, every internal
register UNSPEC. Three draws are used: `d` for IN, `d + 1` for OUT, `d + 2` for the internal registers. Its arguments, the
capacity, the next free draw and what remains scheduled, are no registers. -/
def State.afterReset (capacity : Capacity) (d : Nat) (events : List Event) : State :=
  (State.cleared capacity d events).withUnspecInternals (d + 2)

/-- The machine right after reset, with nothing scheduled. -/
def State.reset : State := State.afterReset Config.capacity 0 []

end Sys2Proof.Machine
end

