-- ==== Sys2Proof/Machine/Ops.lean ====
section
/-! DEFINITION. The named operations over the buffers and registers: the canonical memory, the UNSPEC draws, taking an
error (60_exceptions.md R171), the return from one (R177, 10_state.md R19), and sequencing of results. -/

namespace Sys2Proof.Machine

/-! ### The canonical memory -/

/-- The listed byte at an index, if there is one. -/
def Memory.find : Memory → Nat → Option Byte
  | [], _ => none
  | (a, b) :: m, i => if i = a then some b else Memory.find m i

/-- Store a byte, keeping the indices strictly rising. -/
def Memory.store : Memory → Nat → Byte → Memory
  | [], i, d => [(i, d)]
  | (a, b) :: m, i, d =>
    if i < a then (i, d) :: (a, b) :: m
    else if i = a then (a, d) :: m
    else (a, b) :: Memory.store m i d

/-- Forget every byte at index `n` or above: they become UNSPEC. -/
def Memory.truncate (m : Memory) (n : Nat) : Memory := m.filter fun c => c.1 < n

/-- Every index of the list lies above `a`. -/
def Memory.above (a : Nat) (m : Memory) : Bool := m.all fun c => a < c.1

/-- The canonical form: indices strictly rising (assumption 6). -/
def Memory.wf : Memory → Bool
  | [] => true
  | (a, _) :: m => Memory.above a m && Memory.wf m

/-! ### Reading the state -/

/-- MSG_CAP, the size of IN in bytes (R3). -/
def State.msgCap (s : State) : Nat := s.capacity.bytes

/-- The size of OUT in bytes (R3). -/
def State.outCap (s : State) : Nat := s.msgCap + 8

/-- STATE = BUSY. -/
def State.isBusy (s : State) : Bool := s.status.state == .busy

/-- IN[i] (R23): the byte last written, or the UNSPEC byte of the last reset's draw. -/
def State.inByte (s : State) (i : Nat) : Byte := (s.inMem.find i).getD (Config.unspecByte s.inDraw i)

/-- OUT[i] outside a BUSY period (R24): the byte of the result, or an UNSPEC byte. -/
def State.outByte (s : State) (i : Nat) : Byte := (s.outMem.find i).getD (Config.unspecByte s.outDraw i)

/-- KEY[i] (R12). -/
def State.keyByte (s : State) (i : Nat) : Byte := s.key[i]?.getD 0

/-- IV[i] (R13). -/
def State.ivByte (s : State) (i : Nat) : Byte := s.iv[i]?.getD 0

/-! ### Errors and their return -/

/-- `OUT[0 .. MSG_CAP+8) <- UNSPEC` (R130, R171): a new draw. -/
def State.forgetOut (s : State) : State :=
  { s with outMem := [], outDraw := s.drawn, drawn := s.drawn + 1 }

/-- Every internal register UNSPEC, after an error (R171) or a completion (93_implementation_defined.md X6): a new draw. -/
def State.forgetInternals (s : State) : State :=
  { s.withUnspecInternals s.drawn with drawn := s.drawn + 1 }

/-- Error entry, `raise e` (R171). WDROP and the operand registers are unchanged. -/
def raiseError (e : ErrorCause) (s : State) : State :=
  let s := s.forgetOut.forgetInternals
  { s with status := { s.status with state := .error, err := e }, outLen := 0 }

/-- The acknowledge of a STATUS write while not BUSY (R19), which is also the return from an error or from DONE
(R177): nothing is restored. -/
def acknowledge (s : State) : State := { s with status := ⟨.idle, .none, false⟩ }

/-- RESET (R200, R201): the reset state, on the same hardware, with what is left of the schedule (assumption 13). -/
def resetMachine (s : State) : State := State.afterReset s.capacity s.drawn s.events

/-! ### Sequencing -/

/-- Go on from a next state; a stop stays a stop. -/
def andThen (r : Result) (f : State → Result) : Result :=
  match r with
  | .next s => f s
  | .fault e => .fault e
  | .refused e => .refused e

/-- The outcome of a use of the word codec: none is a broken bounds precondition (40_word_codec.md R82). -/
def withinBounds (s : Option State) : Result :=
  match s with
  | some s => .next s
  | none => .fault .codecBounds

end Sys2Proof.Machine
end

