-- ==== Sys2Proof/Machine/Operands.lean ====
section
/-! DEFINITION. Operands: the fields of a command (30_encoding.md R61 to R64), the big-endian word codec
(40_word_codec.md), the bytes of the length registers (10_state.md R21, R22), the message chunks (43_block_driver.md
R131, R136) and the host address map (20_memory.md R40). -/

namespace Sys2Proof.Machine

/-! ### The fields of a command -/

/-- OP (R61). -/
def opOf : Instr → Op
  | .encEcb _ _ => .encrypt
  | .encCbc _ _ => .encrypt
  | .decEcb _ _ => .decrypt
  | .decCbc _ _ => .decrypt
  | .encb => .encryptBlock
  | .decb => .decryptBlock

/-- MODE (R62); the block commands have none. -/
def modeOf : Instr → Option Mode
  | .encEcb _ _ => some .ecb
  | .encCbc _ _ => some .cbc
  | .decEcb _ _ => some .ecb
  | .decCbc _ _ => some .cbc
  | .encb => none
  | .decb => none

/-- SKIP (R63). -/
def skipOf : Instr → Bool
  | .encEcb s _ => s
  | .encCbc s _ => s
  | .decEcb s _ => s
  | .decCbc s _ => s
  | .encb => false
  | .decb => false

/-- IVEN (R64). -/
def ivSuppliedOf : Instr → Bool
  | .encEcb _ v => v
  | .encCbc _ v => v
  | .decEcb _ v => v
  | .decCbc _ v => v
  | .encb => false
  | .decb => false

/-! ### The word codec -/

/-- A big-endian word from four bytes (R80). -/
def wordOfBytes (b0 b1 b2 b3 : Byte) : Word :=
  (b0.setWidth 32 <<< 24) ||| (b1.setWidth 32 <<< 16) ||| (b2.setWidth 32 <<< 8) ||| b3.setWidth 32

/-- Byte `j` of a word, byte 0 its bits 31:24 (R81, R46). -/
def byteOfWord (w : Word) (j : Nat) : Byte := (w >>> (24 - 8 * j)).setWidth 8

/-- The word with byte `j` replaced (R21). -/
def setByteOfWord (w : Word) (j : Nat) (d : Byte) : Word :=
  wordOfBytes (if j = 0 then d else byteOfWord w 0) (if j = 1 then d else byteOfWord w 1)
    (if j = 2 then d else byteOfWord w 2) (if j = 3 then d else byteOfWord w 3)

/-- `bytesToWords` (R80) on a buffer of `len` bytes; `none` where the bounds precondition of R82 fails. -/
def bytesToWords (len : Nat) (buf : Nat → Byte) (off cnt : Nat) : Option (List Word) :=
  if off + 4 * cnt ≤ len then
    some ((List.range cnt).map fun i =>
      wordOfBytes (buf (off + 4 * i)) (buf (off + 4 * i + 1)) (buf (off + 4 * i + 2)) (buf (off + 4 * i + 3)))
  else none

/-- Store one word big-endian (R81). -/
def storeWord (m : Memory) (off : Nat) (w : Word) : Memory :=
  (((m.store off (byteOfWord w 0)).store (off + 1) (byteOfWord w 1)).store (off + 2) (byteOfWord w 2)).store
    (off + 3) (byteOfWord w 3)

/-- Store words in order (R81). -/
def storeWords (m : Memory) (off : Nat) : List Word → Memory
  | [] => m
  | w :: ws => storeWords (storeWord m off w) (off + 4) ws

/-- `wordsToBytes` (R81) into a buffer of `len` bytes; `none` where the bounds precondition of R82 fails. -/
def wordsToBytes (len : Nat) (words : List Word) (m : Memory) (off : Nat) : Option Memory :=
  if off + 4 * words.length ≤ len then some (storeWords m off words) else none

/-- Two words of a buffer, as a block (R85). -/
def blockAt (len : Nat) (buf : Nat → Byte) (off : Nat) : Option Block :=
  match bytesToWords len buf off 2 with
  | some [a, b] => some ⟨a, b⟩
  | _ => none

/-- `bytesToWords(KEY, 0, 4)` (R135). -/
def keyWordsOf (s : State) : Option KeyWords :=
  match bytesToWords 16 s.keyByte 0 4 with
  | some [a, b, c, d] => some #v[a, b, c, d]
  | _ => none

/-- `bytesToWords(IV, 0, 2)` (R135). -/
def ivBlockOf (s : State) : Option Block := blockAt 8 s.ivByte 0

/-! ### The message -/

/-- The pad count of a command on a message of `n` bytes (R131). -/
def padCount (i : Instr) (n : Nat) : Nat :=
  match opOf i with
  | .encrypt => if skipOf i then 0 else 8 - n % 8
  | .decrypt => 0
  | .encryptBlock => 0
  | .decryptBlock => 0

/-- Byte `j` of chunk `b` of the padded message (R136). IN is read only below NLEN (R56). -/
def chunkByte (s : State) (b j : Nat) : Byte :=
  let i := 8 * b + j
  if i < s.nlen then s.inByte i else BitVec.ofNat 8 s.padn

/-! ### The host address map -/

/-- A location of the host space (R40). -/
inductive Location where
  | key (i : Fin 16)
  | iv (i : Fin 8)
  | cmd
  | status
  | irqEn
  | inLen (i : Fin 4)
  | outLen (i : Fin 4)
  | inBuf (i : Nat)
  | outBuf (i : Nat)
  deriving DecidableEq, Repr

/-- The registers of R40's map, below 0x4000. -/
def registerAt (a : Nat) : Option Location :=
  if h : a < 0x10 then some (.key ⟨a, h⟩)
  else if h : a < 0x18 then some (.iv ⟨a - 0x10, by omega⟩)
  else if a = 0x18 then some .cmd
  else if a = 0x19 then some .status
  else if a = 0x1A then some .irqEn
  else if a = 0x1B then none
  else if h : a < 0x20 then some (.inLen ⟨a - 0x1C, by omega⟩)
  else if h : a < 0x24 then some (.outLen ⟨a - 0x20, by omega⟩)
  else none

/-- The buffer windows of R40's map, from 0x4000 on. -/
def windowAt (msgCap a : Nat) : Option Location :=
  if a < 0x4000 + msgCap then some (.inBuf (a - 0x4000))
  else if a < 0x8000 then none
  else if a < 0x8000 + (msgCap + 8) then some (.outBuf (a - 0x8000))
  else none

/-- The location at a host address (R40); `none` is an unmapped address (R42). -/
def locate (msgCap : Nat) (a : Addr) : Option Location :=
  if a.toNat < 0x4000 then registerAt a.toNat else windowAt msgCap a.toNat

end Sys2Proof.Machine
end

