-- ==== Sys2Proof/Machine/Flags.lean ====
section
/-! DEFINITION. The only flags of XTEA-CORE (10_state.md R29): the STATUS byte (R15 to R19), WDROP (R18), IRQ_EN (R20)
and the `irq` output (60_exceptions.md R176). -/

namespace Sys2Proof.Machine

/-- The STATE field (R15). -/
def EngineState.code : EngineState → Byte
  | .idle => 0
  | .busy => 1
  | .done => 2
  | .error => 3

/-- The ERR code (60_exceptions.md R170). -/
def ErrorCause.code : ErrorCause → Byte
  | .none => 0
  | .configuration => 1
  | .alignment => 2
  | .bounds => 3
  | .padding => 4

/-- The STATUS byte (R15): STATE in 1:0, ERR in 4:2, WDROP in 5, 7:6 read as 0. -/
def Status.byte (st : Status) : Byte :=
  st.state.code ||| (st.err.code <<< 2) ||| (if st.wdrop then 0x20 else 0)

/-- What IRQ_EN stores of a written byte: bit 0, the reserved bits 7:1 are ignored (R20). -/
def irqEnStored (d : Byte) : Byte := d &&& 0x01

/-- The `irq` output (R176). -/
def State.irq (s : State) : Bool :=
  s.irqEn.getLsbD 0 && (s.status.state == .done || s.status.state == .error)

/-- A host write dropped while BUSY: nothing is stored and WDROP <- 1 (R18, 20_memory.md R44). -/
def dropWrite (s : State) : State := { s with status := { s.status with wdrop := true } }

/-- A successful finish (43_block_driver.md R140 to R145): OUT_LEN <- n, STATE <- DONE, OUT beyond OUT_LEN UNSPEC (R24), and
every internal register UNSPEC (00_scope.md R6, 93_implementation_defined.md X6). WDROP is left as it is (R18). -/
def finishDone (n : Nat) (s : State) : State :=
  { s.forgetInternals with
    outLen := BitVec.ofNat 32 n
    outMem := s.outMem.truncate n
    status := { s.status with state := .done, err := .none } }

end Sys2Proof.Machine
end

