-- ==== Sys2Proof/Machine/Feistel.lean ====
section
/-! DEFINITION. The XTEA Feistel engine (41_feistel.md). -/

namespace Sys2Proof.Machine

/-- DELTA (R90). -/
def delta : Word := 0x9E3779B9#32

/-- ROUNDS (R90). -/
def rounds : Nat := 32

/-- LIMIT = DELTA * ROUNDS modulo 2^32 (R90). -/
def limit : Word := delta * BitVec.ofNat 32 rounds

/-- MIX (R91). -/
def mix (x : Word) : Word := ((x <<< 4) ^^^ (x >>> 5)) + x

/-- The key word of the first half-round, `KW[SUM[1:0]]` (R92). -/
def keyLow (kw : KeyWords) (sum : Word) : Word := kw[(sum.extractLsb' 0 2).toNat]'(sum.extractLsb' 0 2).isLt

/-- The key word of the second half-round, `KW[SUM[12:11]]` (R92). -/
def keyHigh (kw : KeyWords) (sum : Word) : Word := kw[(sum.extractLsb' 11 2).toNat]'(sum.extractLsb' 11 2).isLt

/-- The working values of a call of the engine: `y`, `z`, SUM and RND (R93, R94). -/
structure Rounds where
  y : Word
  z : Word
  sum : Word
  rnd : Nat
  deriving DecidableEq, Repr

/-- One iteration of encipher (R93). -/
def encipherRound (kw : KeyWords) (r : Rounds) : Rounds :=
  let y := r.y + (mix r.z ^^^ (r.sum + keyLow kw r.sum))
  let sum := r.sum + delta
  let z := r.z + (mix y ^^^ (sum + keyHigh kw sum))
  ⟨y, z, sum, r.rnd + 1⟩

/-- One iteration of decipher (R94): the decrement falls between the two updates. -/
def decipherRound (kw : KeyWords) (r : Rounds) : Rounds :=
  let z := r.z - (mix r.y ^^^ (r.sum + keyHigh kw r.sum))
  let sum := r.sum - delta
  let y := r.y - (mix z ^^^ (sum + keyLow kw sum))
  ⟨y, z, sum, r.rnd + 1⟩

/-- `n` iterations of a round. -/
def iterateRounds (round : Rounds → Rounds) : Nat → Rounds → Rounds
  | 0, r => r
  | n + 1, r => iterateRounds round n (round r)

/-- The working values after `n` iterations of encipher (R93). -/
def encipherRounds (kw : KeyWords) (v : Block) (n : Nat) : Rounds :=
  iterateRounds (encipherRound kw) n ⟨v.v0, v.v1, 0, 0⟩

/-- The working values after `n` iterations of decipher (R94). -/
def decipherRounds (kw : KeyWords) (v : Block) (n : Nat) : Rounds :=
  iterateRounds (decipherRound kw) n ⟨v.v0, v.v1, limit, 0⟩

/-- `encipher` on a block (R93); the loop runs exactly ROUNDS times (R95; assumption 14). -/
def encipherBlock (kw : KeyWords) (v : Block) : Block :=
  let r := encipherRounds kw v rounds
  ⟨r.y, r.z⟩

/-- `decipher` on a block (R94); the loop runs exactly ROUNDS times (R95; assumption 14). -/
def decipherBlock (kw : KeyWords) (v : Block) : Block :=
  let r := decipherRounds kw v rounds
  ⟨r.y, r.z⟩

/-- The engine reads V and KW and writes V, SUM and RND, and nothing else (R98). -/
def State.withRounds (s : State) (r : Rounds) : State :=
  { s with v := ⟨r.y, r.z⟩, sum := r.sum, rnd := r.rnd }

/-- `encipher(V, KW)` in place (R93). -/
def encipherV (s : State) : State := s.withRounds (encipherRounds s.kw s.v rounds)

/-- `decipher(V, KW)` in place (R94). -/
def decipherV (s : State) : State := s.withRounds (decipherRounds s.kw s.v rounds)

end Sys2Proof.Machine
end

