-- ==== Sys2Proof/Machine/Modes.lean ====
section
/-! DEFINITION. The ECB/CBC mode multiplexer (42_modes.md): one operation on V, and in CBC on CHAIN, per chunk. -/

namespace Sys2Proof.Machine

/-- `ecbEncrypt` (R111). -/
def ecbEncrypt (s : State) : State := encipherV s

/-- `ecbDecrypt` (R112). -/
def ecbDecrypt (s : State) : State := decipherV s

/-- `cbcEncrypt` (R113). -/
def cbcEncrypt (s : State) : State :=
  let t := encipherV { s with v := s.v.xor s.chain }
  { t with chain := t.v }

/-- `cbcDecrypt` (R114): PREV takes the ciphertext before the transform. -/
def cbcDecrypt (s : State) : State :=
  let t := decipherV { s with prev := s.v }
  { t with v := t.v.xor t.chain, chain := t.prev }

end Sys2Proof.Machine
end

