-- ==== Sys2Proof/Machine/Driver.lean ====
section
/-! DEFINITION. The block iterator and padding engine (43_block_driver.md sections 1 and 2): what every command shares,
its acceptance (R130 to R135) and its complete step (R136 to R139). -/

namespace Sys2Proof.Machine

/-! ### Acceptance -/

/-- The first lines of acceptance (R130): CMD and OPC take the byte, STATUS is cleared, OUT_LEN <- 0, OUT UNSPEC. -/
def beginCommand (c : Byte) (s : State) : State :=
  { s.forgetOut with cmd := c, opc := c, status := ⟨.idle, .none, false⟩, outLen := 0 }

/-- An illegal byte written to CMD (R132, 30_encoding.md R70): ConfigurationError, whatever IN_LEN holds. -/
def acceptIllegal (c : Byte) (s : State) : State := raiseError .configuration (beginCommand c s)

/-- The bounds check fails (R133). -/
def boundsFails (i : Instr) (msgCap n : Nat) : Bool :=
  match opOf i with
  | .encrypt => msgCap < n
  | .decrypt => msgCap < n
  | .encryptBlock => n != 8
  | .decryptBlock => n != 8

/-- The alignment check fails (R134). -/
def alignFails (i : Instr) (n : Nat) : Bool :=
  match opOf i with
  | .encrypt => skipOf i && n % 8 != 0
  | .decrypt => n % 8 != 0
  | .encryptBlock => false
  | .decryptBlock => false

/-- CHAIN at acceptance (R135): from IV or zero for a CBC command, untouched otherwise (10_state.md R26). -/
def initialChain (i : Instr) (s : State) : Option Block :=
  if modeOf i = some .cbc then
    if ivSuppliedOf i then ivBlockOf s else some ⟨0, 0⟩
  else some s.chain

/-- Initialisation of a command that passed the checks (R135), and STATE <- BUSY (R130). -/
def initCommand (i : Instr) (n : Nat) (s : State) : Option State :=
  match keyWordsOf s, initialChain i s with
  | some kw, some chain =>
    some { s with
      kw
      chain
      nlen := n
      padn := padCount i n
      nblk := (n + padCount i n) / 8
      blk := 0
      status := { s.status with state := .busy } }
  | _, _ => none

/-- Acceptance of a legal command (R130): the checks in the order of 60_exceptions.md R172, then initialisation. -/
def accept (i : Instr) (s : State) : Result :=
  let s := beginCommand (encode i) s
  let n := s.inLen.toNat
  if boundsFails i s.msgCap n then .next (raiseError .bounds s)
  else if alignFails i n then .next (raiseError .alignment s)
  else withinBounds (initCommand i n s)

/-! ### The complete step -/

/-- `V <- bytesToWords(chunk(BLK), 0, 2)` (R140, R141). -/
def loadChunk (s : State) : Option State :=
  (blockAt 8 (chunkByte s s.blk) 0).map fun v => { s with v }

/-- `V <- bytesToWords(IN, off, 2)` (R142 to R145). -/
def loadIn (off : Nat) (s : State) : Option State :=
  (blockAt s.msgCap s.inByte off).map fun v => { s with v }

/-- `wordsToBytes(V, OUT, off)` (R140 to R145). -/
def storeOut (off : Nat) (s : State) : Option State :=
  (wordsToBytes s.outCap [s.v.v0, s.v.v1] s.outMem off).map fun outMem => { s with outMem }

/-- One chunk: load V, transform it, store it, and BLK advances by one (10_state.md R11). -/
def processChunk (load : State → Option State) (transform : State → State) (off : Nat) (s : State) : Result :=
  withinBounds do
    let s ← load s
    let s ← storeOut off (transform s)
    return { s with blk := s.blk + 1 }

/-- The body of a message encryption (R140, R141). -/
def encryptChunk (transform : State → State) (s : State) : Result :=
  processChunk loadChunk transform (8 * s.blk) s

/-- The body of a message decryption (R142, R143). -/
def decryptChunk (transform : State → State) (s : State) : Result :=
  processChunk (loadIn (8 * s.blk)) transform (8 * s.blk) s

/-- The body of a block command (R144, R145). -/
def blockChunk (transform : State → State) (s : State) : Result :=
  processChunk (loadIn 0) transform 0 s

/-- The body run for `n` chunks, in increasing BLK order (R137, 42_modes.md R116). -/
def runChunks (body : State → Result) : Nat → State → Result
  | 0, s => .next s
  | n + 1, s => andThen (body s) (runChunks body n)

/-- The padding strip (R139): the last byte of the decrypted output, taken literally. -/
def strip (s : State) : State :=
  if s.nlen = 0 then raiseError .padding s
  else
    let p := (s.outByte (s.nlen - 1)).toNat
    if s.nlen < p then raiseError .padding s else finishDone (s.nlen - p) s

/-- The finish of a message encryption (R138). -/
def finishEncrypt (s : State) : State := finishDone (s.nlen + s.padn) s

/-- The finish of a message decryption (R138, R139). -/
def finishDecrypt (skip : Bool) (s : State) : State := if skip then finishDone s.nlen s else strip s

/-- The finish of a block command (R144, R145). -/
def finishBlock (s : State) : State := finishDone 8 s

/-- The complete step (R137): the body for BLK = 0 to NBLK - 1 (acceptance left BLK at 0), then the finish. -/
def complete (body : State → Result) (finish : State → State) (s : State) : Result :=
  andThen (runChunks body (s.nblk - s.blk) s) fun s => .next (finish s)

end Sys2Proof.Machine
end

