-- ==== Sys2Proof/Machine/Commands.lean ====
section
/-! DEFINITION. The six commands (43_block_driver.md section 3), one meaning each. A command's life has two parts, and its
meaning runs the one the machine is at: while STATE is not BUSY its acceptance (R130), while STATE is BUSY its complete
step (R137). The first is the effect of the host's write of its byte to CMD, the second the ENGINE's step; any number of
host transactions may fall between them (assumption 4). -/

namespace Sys2Proof.Machine

/-- ENC.ECB (R140). -/
def execEncEcb (skip iv : Bool) (s : State) : Result :=
  if s.isBusy then complete (encryptChunk ecbEncrypt) finishEncrypt s else accept (.encEcb skip iv) s

/-- ENC.CBC (R141). -/
def execEncCbc (skip iv : Bool) (s : State) : Result :=
  if s.isBusy then complete (encryptChunk cbcEncrypt) finishEncrypt s else accept (.encCbc skip iv) s

/-- DEC.ECB (R142). -/
def execDecEcb (skip iv : Bool) (s : State) : Result :=
  if s.isBusy then complete (decryptChunk ecbDecrypt) (finishDecrypt skip) s else accept (.decEcb skip iv) s

/-- DEC.CBC (R143). -/
def execDecCbc (skip iv : Bool) (s : State) : Result :=
  if s.isBusy then complete (decryptChunk cbcDecrypt) (finishDecrypt skip) s else accept (.decCbc skip iv) s

/-- ENCB (R144). -/
def execEncb (s : State) : Result :=
  if s.isBusy then complete (blockChunk encipherV) finishBlock s else accept .encb s

/-- DECB (R145). -/
def execDecb (s : State) : Result :=
  if s.isBusy then complete (blockChunk decipherV) finishBlock s else accept .decb s

end Sys2Proof.Machine
end

