-- ==== Sys2Proof/Machine/Dispatch.lean ====
section
/-! DEFINITION. The meaning of each command, one arm per constructor of Instr. -/

namespace Sys2Proof.Machine

def exec (i : Instr) (s : State) : Host.Outcome State Fault Refusal :=
  match i with
  | .encEcb skip iv => Sys2Proof.Machine.execEncEcb skip iv s
  | .encCbc skip iv => Sys2Proof.Machine.execEncCbc skip iv s
  | .decEcb skip iv => Sys2Proof.Machine.execDecEcb skip iv s
  | .decCbc skip iv => Sys2Proof.Machine.execDecCbc skip iv s
  | .encb => Sys2Proof.Machine.execEncb s
  | .decb => Sys2Proof.Machine.execDecb s

end Sys2Proof.Machine
end

