-- ==== Sys2Proof/Machine/HostPort.lean ====
section
/-! DEFINITION. The host port (20_memory.md R41 to R45) and the steps of the three agents (00_scope.md R5). -/

namespace Sys2Proof.Machine

/-- The host transaction returns `r`. -/
def State.answer (s : State) (r : Reply) : State := { s with reply := some r }

/-! ### Reads -/

/-- The byte a location reads as outside a BUSY period (R40). -/
def readLocation (s : State) : Location → Byte
  | .key i => s.key[i.val]
  | .iv i => s.iv[i.val]
  | .cmd => s.cmd
  | .status => s.status.byte
  | .irqEn => s.irqEn
  | .inLen i => byteOfWord s.inLen i.val
  | .outLen i => byteOfWord s.outLen i.val
  | .inBuf i => s.inByte i
  | .outBuf i => s.outByte i

/-- OUT or OUT_LEN: read-only (R43), and UNSPEC while BUSY (R45). -/
def Location.isResult : Location → Bool
  | .key _ => false
  | .iv _ => false
  | .cmd => false
  | .status => false
  | .irqEn => false
  | .inLen _ => false
  | .outLen _ => true
  | .inBuf _ => false
  | .outBuf _ => true

/-- A read that returns UNSPEC (R45): a new draw each time. -/
def answerUnspec (s : State) : State :=
  { s.answer (.data (Config.unspecByte s.drawn 0)) with drawn := s.drawn + 1 }

/-- `RD a` (R41, R42, R45). -/
def hostRead (a : Addr) (s : State) : State :=
  match locate s.msgCap a with
  | none => s.answer .busErr
  | some loc => if loc.isResult && s.isBusy then answerUnspec s else s.answer (.data (readLocation s loc))

/-! ### Writes -/

/-- A write of `c` to CMD while not BUSY (43_block_driver.md R130): the command starts. -/
def writeCommand (c : Byte) (s : State) : Result :=
  match decode c with
  | some i => exec i s
  | none => .next (acceptIllegal c s)

/-- The effect of a write that is not dropped, on each location (R43, R44 and the rule of the location). -/
def writeLocation (d : Byte) (s : State) : Location → Result
  | .key i => .next { s with key := s.key.set i.val d }
  | .iv i => .next { s with iv := s.iv.set i.val d }
  | .cmd => writeCommand d s
  | .status => .next (acknowledge s)
  | .irqEn => .next { s with irqEn := irqEnStored d }
  | .inLen i => .next { s with inLen := setByteOfWord s.inLen i.val d }
  | .outLen _ => .next s
  | .inBuf i => .next { s with inMem := s.inMem.store i d }
  | .outBuf _ => .next s

/-- The locations whose writes are dropped while BUSY (R44). -/
def Location.droppedWhileBusy : Location → Bool
  | .key _ => true
  | .iv _ => true
  | .cmd => true
  | .status => true
  | .irqEn => false
  | .inLen _ => true
  | .outLen _ => false
  | .inBuf _ => true
  | .outBuf _ => false

/-- `WR a, d` (R41 to R44). -/
def hostWrite (a : Addr) (d : Byte) (s : State) : Result :=
  match locate s.msgCap a with
  | none => .next (s.answer .busErr)
  | some loc =>
    if loc.droppedWhileBusy && s.isBusy then .next (dropWrite (s.answer .ok))
    else writeLocation d (s.answer .ok) loc

/-! ### The agents -/

/-- The ENGINE's turn: its complete step while BUSY (43_block_driver.md R137); otherwise it does nothing
(60_exceptions.md R185; assumption 12). The command is the accepted one, OPC (42_modes.md R110). -/
def engineTurn (s : State) : Result :=
  if s.isBusy then
    match decode s.opc with
    | some i => exec i s
    | none => .fault .noCommand
  else .next s

/-- One scheduled step (00_scope.md R5). -/
def runEvent (e : Event) (s : State) : Result :=
  match e with
  | .rd a => .next (hostRead a s)
  | .wr a d => hostWrite a d s
  | .engine => engineTurn s
  | .reset => .next (resetMachine s)

/-- The next step of the schedule (20_memory.md R50). With nothing scheduled it is the ENGINE's turn: weak fairness
(70_reset_and_hazards.md R211; assumption 3). -/
def runNext (s : State) : Result :=
  match s.events with
  | [] => engineTurn s
  | e :: rest => runEvent e { s with events := rest }

/-- Put a write of the command byte `c` to CMD at the head of the schedule, on a machine that can accept it: a BUSY
machine is made IDLE first, because it would drop the write (assumption 2). -/
def scheduleCommand (c : Byte) (s : State) : State :=
  { s with
    events := .wr 0x0018#16 c :: s.events
    status := if s.isBusy then ⟨.idle, .none, false⟩ else s.status }

end Sys2Proof.Machine
end

