-- ==== Sys2Proof/Machine/Step.lean ====
section
/-! DEFINITION. One step of the machine: the next scheduled step of HOST, ENGINE or RESET. -/

namespace Sys2Proof.Machine

/-- One step (00_scope.md R5, 20_memory.md R50). -/
def step (s : State) : Host.Outcome State Fault Refusal := runNext s

/-- The state whose next step runs the command of a table word (assumption 2). -/
def State.withFetchWord (s : State) (nbits w : Nat) : State := scheduleCommand (BitVec.ofNat 8 (w % 2 ^ nbits)) s

end Sys2Proof.Machine
end

