-- ==== Sys2Proof/Safety.lean ====
section
/-! DEFINITION. The terms claims are stated in: blocks as bytes and the CBC recurrences, what an accepted command and an
error entry look like, what a command leaves unchanged, and the invariant of the machine. -/

namespace Sys2Proof.Machine

/-! ### The round table -/

/-- The column `a` of 41_feistel.md R99: the key index of the first half-round. -/
def tableA : List Nat :=
  [0, 1, 2, 3, 0, 1, 2, 3, 0, 1, 2, 3, 0, 1, 2, 3] ++ [0, 1, 2, 3, 0, 1, 2, 3, 0, 1, 2, 3, 0, 1, 2, 3]

/-- The column `b` of R99: the key index of the second half-round. -/
def tableB : List Nat :=
  [3, 2, 1, 0, 0, 3, 2, 1, 0, 0, 3, 2, 1, 1, 0, 3] ++ [2, 1, 1, 0, 3, 2, 1, 1, 0, 3, 2, 2, 1, 0, 3, 2]

/-- The column `SUM_in` of R99, and after it the last `SUM_out`: SUM before each round, and after the last. -/
def tableSum : List Word :=
  [0x00000000#32, 0x9e3779b9#32, 0x3c6ef372#32, 0xdaa66d2b#32, 0x78dde6e4#32, 0x1715609d#32, 0xb54cda56#32]
  ++ [0x5384540f#32, 0xf1bbcdc8#32, 0x8ff34781#32, 0x2e2ac13a#32, 0xcc623af3#32, 0x6a99b4ac#32, 0x08d12e65#32]
  ++ [0xa708a81e#32, 0x454021d7#32, 0xe3779b90#32, 0x81af1549#32, 0x1fe68f02#32, 0xbe1e08bb#32, 0x5c558274#32]
  ++ [0xfa8cfc2d#32, 0x98c475e6#32, 0x36fbef9f#32, 0xd5336958#32, 0x736ae311#32, 0x11a25cca#32, 0xafd9d683#32]
  ++ [0x4e11503c#32, 0xec48c9f5#32, 0x8a8043ae#32, 0x28b7bd67#32, 0xc6ef3720#32]

/-! ### Messages as blocks -/

/-- The block of eight bytes (40_word_codec.md R80). -/
def blockOfBytes (b : Nat → Byte) : Block :=
  ⟨wordOfBytes (b 0) (b 1) (b 2) (b 3), wordOfBytes (b 4) (b 5) (b 6) (b 7)⟩

/-- Byte `j` of the big-endian image of a block (40_word_codec.md R81). -/
def byteOfBlock (v : Block) (j : Nat) : Byte := if j < 4 then byteOfWord v.v0 j else byteOfWord v.v1 (j - 4)

/-- Chunk `b` of the padded message of the running command (43_block_driver.md R136), as a block. -/
def chunkBlock (s : State) (b : Nat) : Block := blockOfBytes (chunkByte s b)

/-- Bytes 8b to 8b+7 of IN, as a block. -/
def inBlock (s : State) (b : Nat) : Block := blockOfBytes fun j => s.inByte (8 * b + j)

/-- The ciphertext blocks of CBC (42_modes.md R113): each plaintext block is XORed with the ciphertext block before it,
the first with the initial chaining state. -/
def cbcCipher (kw : KeyWords) (chain : Block) (plain : Nat → Block) : Nat → Block
  | 0 => encipherBlock kw ((plain 0).xor chain)
  | b + 1 => encipherBlock kw ((plain (b + 1)).xor (cbcCipher kw chain plain b))

/-- The plaintext blocks of CBC (42_modes.md R114). -/
def cbcPlain (kw : KeyWords) (chain : Block) (cipher : Nat → Block) : Nat → Block
  | 0 => (decipherBlock kw (cipher 0)).xor chain
  | b + 1 => (decipherBlock kw (cipher (b + 1))).xor (cipher b)

/-! ### The life of a command -/

/-- A byte that is no command, by its fields (30_encoding.md R65, R66; 43_block_driver.md R132): RSV is not 00, or OP is
ENCRYPT or DECRYPT and MODE is 10 or 11, or OP is a block operation and CMD[5:2] is not 0. -/
def IllegalByte (c : Byte) : Prop :=
  c.extractLsb' 6 2 ≠ 0b00#2 ∨
  ((c.extractLsb' 0 2 = 0b00#2 ∨ c.extractLsb' 0 2 = 0b01#2) ∧
    (c.extractLsb' 2 2 = 0b10#2 ∨ c.extractLsb' 2 2 = 0b11#2)) ∨
  ((c.extractLsb' 0 2 = 0b10#2 ∨ c.extractLsb' 0 2 = 0b11#2) ∧ c.extractLsb' 2 4 ≠ 0b0000#4)

/-- The bounds check of R133 passes. -/
def BoundsOk (i : Instr) (s : State) : Prop :=
  ((opOf i = .encrypt ∨ opOf i = .decrypt) → s.inLen.toNat ≤ s.msgCap) ∧
  ((opOf i = .encryptBlock ∨ opOf i = .decryptBlock) → s.inLen.toNat = 8)

/-- The alignment check of R134 passes. -/
def AlignOk (i : Instr) (s : State) : Prop :=
  (opOf i = .decrypt → s.inLen.toNat % 8 = 0) ∧ (opOf i = .encrypt → skipOf i = true → s.inLen.toNat % 8 = 0)

/-- The operand registers and everything else no command writes: KEY, IV, IRQ_EN, IN_LEN, IN, MSG_CAP, the schedule and
the port's answer are the same in both states. -/
structure OperandsKept (s t : State) : Prop where
  key : t.key = s.key
  iv : t.iv = s.iv
  irqEn : t.irqEn = s.irqEn
  inLen : t.inLen = s.inLen
  inBytes : ∀ a, t.inByte a = s.inByte a
  capacity : t.capacity = s.capacity
  events : t.events = s.events
  reply : t.reply = s.reply

/-- BUSY with command `i`, as acceptance leaves the machine (43_block_driver.md R130, R135) and host transactions while
BUSY keep it (10_state.md R30). -/
structure Accepted (i : Instr) (s : State) : Prop where
  state : s.status.state = .busy
  err : s.status.err = .none
  cmd : s.cmd = encode i
  opc : s.opc = encode i
  bounds : BoundsOk i s
  align : AlignOk i s
  kw : keyWordsOf s = some s.kw
  chain : modeOf i = some .cbc → initialChain i s = some s.chain
  nlen : s.nlen = s.inLen.toNat
  padn : s.padn = padCount i s.nlen
  nblk : s.nblk = (s.nlen + s.padn) / 8
  blk : s.blk = 0
  outLen : s.outLen = 0
  outMem : s.outMem = []

/-- Every internal register of `t` is UNSPEC (10_state.md R28, 93_implementation_defined.md X6): it holds, within its
range, what draw `d` gives, which was made since `s`. -/
def InternalsFrom (d : Nat) (s t : State) : Prop :=
  s.drawn ≤ d ∧ d < t.drawn ∧ t = t.withUnspecInternals d

/-- Every internal register of `t` is UNSPEC, from a draw made since `s` that is not the draw of OUT. -/
def InternalsDrawn (s t : State) : Prop := ∃ d, InternalsFrom d s t ∧ d ≠ t.outDraw

/-- What error entry leaves (60_exceptions.md R171): `t` follows `s` with error `e`; OUT is UNSPEC, that is, no byte of it
is listed and it reads from a draw made for it, and so are the internal registers. -/
structure ErrorEntry (e : ErrorCause) (s t : State) : Prop where
  state : t.status.state = .error
  err : t.status.err = e
  outLen : t.outLen = 0
  outMem : t.outMem = []
  outDraw : s.drawn ≤ t.outDraw ∧ t.outDraw < t.drawn
  internals : InternalsDrawn s t
  kept : OperandsKept s t

/-- How a message command begins on a machine that is not BUSY (43_block_driver.md R133, R134, R140 to R143): BoundsError
where the message does not fit, AlignmentError where it must be a multiple of 8 and is not, else BUSY and accepted. -/
def MessageStarts (i : Instr) (mustAlign : Bool) (s : State) : Prop :=
  s.status.state ≠ .busy →
    (s.msgCap < s.inLen.toNat → ∃ t, exec i s = .next t ∧ ErrorEntry .bounds s t) ∧
    (s.inLen.toNat ≤ s.msgCap → mustAlign = true → s.inLen.toNat % 8 ≠ 0 →
      ∃ t, exec i s = .next t ∧ ErrorEntry .alignment s t) ∧
    (s.inLen.toNat ≤ s.msgCap → (mustAlign = true → s.inLen.toNat % 8 = 0) → ∃ t, exec i s = .next t ∧ Accepted i t)

/-- What a successful finish leaves (10_state.md R24, 43_block_driver.md R140 to R145): STATE = DONE, WDROP as it was,
CMD and the operands as they were, OUT_LEN = `n`, OUT[a] = `out a` below `n`, and UNSPEC at and above it, from
the draw made at acceptance; the internal registers UNSPEC (93_implementation_defined.md X6). -/
structure DoneWith (n : Nat) (out : Nat → Byte) (s t : State) : Prop where
  status : t.status = ⟨.done, .none, s.status.wdrop⟩
  cmd : t.cmd = s.cmd
  outLen : t.outLen.toNat = n
  result : ∀ a, a < n → t.outMem.find a = some (out a)
  beyond : ∀ a, n ≤ a → t.outMem.find a = none
  outDraw : t.outDraw = s.outDraw
  internals : ∃ d, InternalsFrom d s t
  kept : OperandsKept s t

/-- The body of a command's chunks (43_block_driver.md R140 to R145). -/
def chunkBodyOf : Instr → State → Result
  | .encEcb _ _ => encryptChunk ecbEncrypt
  | .encCbc _ _ => encryptChunk cbcEncrypt
  | .decEcb _ _ => decryptChunk ecbDecrypt
  | .decCbc _ _ => decryptChunk cbcDecrypt
  | .encb => blockChunk encipherV
  | .decb => blockChunk decipherV

/-- The finish of a command (43_block_driver.md R140 to R145). -/
def finishOf : Instr → State → State
  | .encEcb _ _ => finishEncrypt
  | .encCbc _ _ => finishEncrypt
  | .decEcb skip _ => finishDecrypt skip
  | .decCbc skip _ => finishDecrypt skip
  | .encb => finishBlock
  | .decb => finishBlock

/-- The point inside the complete step after the last chunk and before the finish, where 42_modes.md R117 says what CHAIN
holds (assumption 8). -/
def afterChunks (i : Instr) (s : State) : Result := runChunks (chunkBodyOf i) (s.nblk - s.blk) s

/-- The registers of the running command after its last chunk: as acceptance set them, with BLK past the last chunk
(10_state.md R11, 43_block_driver.md R137). -/
structure CommandRegistersKept (s t : State) : Prop where
  kw : t.kw = s.kw
  opc : t.opc = s.opc
  nlen : t.nlen = s.nlen
  padn : t.padn = s.padn
  nblk : t.nblk = s.nblk
  blk : t.blk = s.nblk

/-- The states agree on everything a host can see and on the schedule; the internal registers (10_state.md R27) and the
count of draws may differ. -/
structure SameToHost (s t : State) : Prop where
  kept : OperandsKept s t
  cmd : t.cmd = s.cmd
  status : t.status = s.status
  outLen : t.outLen = s.outLen
  outBytes : ∀ a, a < s.outLen.toNat → t.outByte a = s.outByte a

/-- A host transaction, not an ENGINE turn and not RESET. -/
def Event.isHost : Event → Bool
  | .rd _ => true
  | .wr _ _ => true
  | .engine => false
  | .reset => false

/-! ### The invariant -/

/-- What holds at reset and after every step. -/
structure State.Inv (s : State) : Prop where
  /-- The canonical form of the buffers (assumption 6). -/
  inWf : s.inMem.wf = true
  outWf : s.outMem.wf = true
  /-- Only bytes of IN are listed (20_memory.md R40). -/
  inRange : ∀ a, (s.inMem.find a).isSome = true → a < s.msgCap
  /-- The listed bytes of OUT are exactly the result, OUT[0..OUT_LEN) (10_state.md R24). -/
  outRange : ∀ a, (s.outMem.find a).isSome = true ↔ a < s.outLen.toNat
  outFits : s.outLen.toNat ≤ s.outCap
  /-- R17. -/
  errIffError : s.status.err ≠ .none ↔ s.status.state = .error
  /-- R18: WDROP is never 1 while IDLE. -/
  idleNoDrop : s.status.state = .idle → s.status.wdrop = false
  /-- The paragraph after R19: the errors of acceptance come with WDROP = 0. -/
  earlyErrorNoDrop : s.status.state = .error → s.status.err ≠ .padding → s.status.wdrop = false
  /-- 60_exceptions.md R170: ConfigurationError is the error of the bytes that decode to no command. -/
  configurationIff : s.status.state = .error → (s.status.err = .configuration ↔ decode s.cmd = none)
  /-- DONE is the end of a legal command. -/
  doneLegal : s.status.state = .done → (decode s.cmd).isSome = true
  /-- R22, 60_exceptions.md R171. -/
  errorNoOutput : s.status.state = .error → s.outLen = 0
  /-- R20: the reserved bits of IRQ_EN read as 0. -/
  irqReserved : s.irqEn &&& 0xFE = 0
  /-- The ranges of R27. -/
  rndRange : s.rnd ≤ 32
  nlenRange : s.nlen ≤ s.msgCap
  padnRange : s.padn ≤ 8
  blkRange : s.blk ≤ s.nblk
  nblkRange : s.nblk ≤ s.msgCap / 8 + 1
  /-- BUSY only with an accepted command (10_state.md R16, R30). -/
  busyAccepted : s.status.state = .busy → ∃ i, Accepted i s
  /-- The draws of IN and OUT were made, and are different draws (assumption 6). -/
  drawsMade : s.inDraw < s.drawn ∧ s.outDraw < s.drawn ∧ s.inDraw ≠ s.outDraw

end Sys2Proof.Machine
end

