-- ==== Sys2Proof/Certificates/Slice0/Obligations.lean ====
section
/-! DEFINITION. The statements about XTEA-CORE for the provers. Each docstring cites the rules it formalises. -/

open Sys2Proof Sys2Proof.Machine

/-! ### Encoding -/

/-- R68: the legal command bytes, bit by bit; `v` is IVEN, `k` is SKIP. No other byte is legal. -/
def Obligations.CommandBytesAsTheTableLaysThemOut : Prop :=
  (∀ v k : BitVec 1,
    decode (0b00#2 ++ v ++ k ++ 0b0000#4) = some (.encEcb (k == 1#1) (v == 1#1)) ∧
    decode (0b00#2 ++ v ++ k ++ 0b0100#4) = some (.encCbc (k == 1#1) (v == 1#1)) ∧
    decode (0b00#2 ++ v ++ k ++ 0b0001#4) = some (.decEcb (k == 1#1) (v == 1#1)) ∧
    decode (0b00#2 ++ v ++ k ++ 0b0101#4) = some (.decCbc (k == 1#1) (v == 1#1))) ∧
  decode 0b00000010#8 = some .encb ∧ decode 0b00000011#8 = some .decb ∧
  ∀ c : Byte, (decode c).isSome = true ↔
    c ∈ [0x00#8, 0x10#8, 0x20#8, 0x30#8, 0x04#8, 0x14#8, 0x24#8, 0x34#8, 0x01#8, 0x11#8, 0x21#8, 0x31#8, 0x05#8, 0x15#8,
      0x25#8, 0x35#8, 0x02#8, 0x03#8]

/-- R65, R66, R68, R69: encoding and decoding agree, in both directions, and the bytes that decode to no command are the
illegal ones, by their fields. -/
def Obligations.EncodeAndDecodeAgree : Prop :=
  (∀ i : Instr, i.wellFormed = true → decode (encode i) = some i) ∧
  (∀ (c : Byte) (i : Instr), decode c = some i → encode i = c) ∧
  (∀ c : Byte, decode c = none ↔ IllegalByte c)

/-- R72: a command is spelled as its mnemonic and its optional suffixes, and its byte is the row's match value plus 0x10
for `.SKIP` and 0x20 for `.IV`; no other text has a byte. -/
def Obligations.SpellingsAssemble : Prop :=
  let suffix := fun skip iv : Bool => (if skip then ".SKIP" else "") ++ (if iv then ".IV" else "")
  let added := fun skip iv : Bool => (if skip then 0x10#8 else 0x00#8) + (if iv then 0x20#8 else 0x00#8)
  (∀ skip iv : Bool,
    assemble ("ENC.ECB" ++ suffix skip iv) = some (0x00#8 + added skip iv) ∧
    assemble ("ENC.CBC" ++ suffix skip iv) = some (0x04#8 + added skip iv) ∧
    assemble ("DEC.ECB" ++ suffix skip iv) = some (0x01#8 + added skip iv) ∧
    assemble ("DEC.CBC" ++ suffix skip iv) = some (0x05#8 + added skip iv)) ∧
  assemble "ENCB" = some 0x02#8 ∧ assemble "DECB" = some 0x03#8 ∧
  ∀ text : String, (assemble text).isSome = true →
    text = "ENCB" ∨ text = "DECB" ∨
      ∃ base skip iv, base ∈ ["ENC.ECB", "ENC.CBC", "DEC.ECB", "DEC.CBC"] ∧ text = base ++ suffix skip iv

/-! ### The word codec -/

/-- R80, R81, R84: the codec fails exactly on a buffer shorter than `off + 4 * cnt`; word `i` is made of the four bytes from
`off + 4 * i`, the first most significant; a write puts the words into the bytes of its range, and changes no other byte. -/
def Obligations.CodecReadsAndWritesItsRange : Prop :=
  (∀ (len : Nat) (buf : Nat → Byte) (off cnt : Nat),
    (len < off + 4 * cnt → bytesToWords len buf off cnt = none) ∧
    (off + 4 * cnt ≤ len → ∃ words, bytesToWords len buf off cnt = some words ∧ words.length = cnt ∧
      ∀ i, i < cnt → words[i]? = some ((buf (off + 4 * i)).setWidth 32 <<< 24 ||| (buf (off + 4 * i + 1)).setWidth 32 <<< 16
        ||| (buf (off + 4 * i + 2)).setWidth 32 <<< 8 ||| (buf (off + 4 * i + 3)).setWidth 32))) ∧
  (∀ (len : Nat) (words : List Word) (m : Memory) (off : Nat),
    (len < off + 4 * words.length → wordsToBytes len words m off = none) ∧
    (off + 4 * words.length ≤ len → ∃ m', wordsToBytes len words m off = some m' ∧
      ∀ a, m'.find a =
        if off ≤ a ∧ a < off + 4 * words.length then
          some ((words.getD ((a - off) / 4) 0 >>> (24 - 8 * ((a - off) % 4))).setWidth 8)
        else m.find a))

/-- R83: the two operations of the codec are inverse to each other. -/
def Obligations.CodecRoundTrips : Prop :=
  (∀ (bytes : List Byte) (cnt : Nat), bytes.length = 4 * cnt →
    ∃ words m, bytesToWords (4 * cnt) (fun a => bytes.getD a 0) 0 cnt = some words ∧
      wordsToBytes (4 * cnt) words [] 0 = some m ∧ ∀ a, m.find a = bytes[a]?) ∧
  (∀ (words : List Word) (rest : Byte),
    ∃ m, wordsToBytes (4 * words.length) words [] 0 = some m ∧
      bytesToWords (4 * words.length) (fun a => (m.find a).getD rest) 0 words.length = some words)

/-- R46: the byte at the lowest index is the most significant. -/
def Obligations.WordsAreBigEndian : Prop :=
  ∀ b0 b1 b2 b3 : Byte,
    (wordOfBytes b0 b1 b2 b3).toNat = b0.toNat * 2 ^ 24 + b1.toNat * 2 ^ 16 + b2.toNat * 2 ^ 8 + b3.toNat

/-! ### The Feistel engine -/

/-- R95: SUM after `r` iterations, that both loops stop exactly at the 32nd, and what a call leaves in RND and SUM. -/
def Obligations.BothLoopsRunThirtyTwoRounds : Prop :=
  (∀ (kw : KeyWords) (v : Block) (r : Nat), r ≤ 32 →
    (encipherRounds kw v r).sum = BitVec.ofNat 32 r * 0x9E3779B9#32 ∧
    (decipherRounds kw v r).sum = BitVec.ofNat 32 (32 - r) * 0x9E3779B9#32 ∧
    (encipherRounds kw v r).rnd = r ∧ (decipherRounds kw v r).rnd = r ∧
    ((encipherRounds kw v r).sum = 0xC6EF3720#32 ↔ r = 32) ∧
    ((decipherRounds kw v r).sum = 0x00000000#32 ↔ r = 32)) ∧
  (∀ s : State, (encipherV s).rnd = 32 ∧ (encipherV s).sum = 0xC6EF3720#32 ∧ (decipherV s).rnd = 32 ∧
    (decipherV s).sum = 0x00000000#32)

/-- R99: round by round, the SUM values and key indices of the table, which do not depend on the data, and the two updates
they enter; the first round starts from the block, and the block after 32 rounds is the result (R91 to R94). -/
def Obligations.RoundsFollowTheTable : Prop :=
  ∀ (kw : KeyWords) (v : Block),
    (encipherRounds kw v 0 = ⟨v.v0, v.v1, 0x00000000#32, 0⟩ ∧
      encipherBlock kw v = ⟨(encipherRounds kw v 32).y, (encipherRounds kw v 32).z⟩) ∧
    (decipherRounds kw v 0 = ⟨v.v0, v.v1, 0xC6EF3720#32, 0⟩ ∧
      decipherBlock kw v = ⟨(decipherRounds kw v 32).y, (decipherRounds kw v 32).z⟩) ∧
    ∀ r, r < 32 →
      let mixed := fun x : Word => ((x <<< 4) ^^^ (x >>> 5)) + x
      let k := fun i : Nat => kw[i]?.getD 0
      let e := encipherRounds kw v r
      let e' := encipherRounds kw v (r + 1)
      let d := decipherRounds kw v (31 - r)
      let d' := decipherRounds kw v (32 - r)
      (e.sum = tableSum.getD r 0 ∧ e'.sum = tableSum.getD (r + 1) 0 ∧
        e'.y = e.y + (mixed e.z ^^^ (tableSum.getD r 0 + k (tableA.getD r 0))) ∧
        e'.z = e.z + (mixed e'.y ^^^ (tableSum.getD (r + 1) 0 + k (tableB.getD r 0)))) ∧
      (d.sum = tableSum.getD (r + 1) 0 ∧ d'.sum = tableSum.getD r 0 ∧
        d'.z = d.z - (mixed d.y ^^^ (tableSum.getD (r + 1) 0 + k (tableB.getD r 0))) ∧
        d'.y = d.y - (mixed d'.z ^^^ (tableSum.getD r 0 + k (tableA.getD r 0))))

/-- R96: decipher and encipher undo each other on every block under every key. -/
def Obligations.DecipherAndEncipherAreInverse : Prop :=
  ∀ (kw : KeyWords) (v : Block), decipherBlock kw (encipherBlock kw v) = v ∧ encipherBlock kw (decipherBlock kw v) = v

/-! ### The mode multiplexer -/

/-- R115: the word-wise XOR is the byte-wise XOR of the big-endian images. -/
def Obligations.CbcXorIsBytewise : Prop :=
  ∀ (a b : Block) (j : Nat), j < 8 → byteOfBlock (a.xor b) j = byteOfBlock a j ^^^ byteOfBlock b j

/-- R111 to R114, R93 to R95: what each mode operation leaves in V and CHAIN, in PREV for CBC decryption, and in SUM and
RND; nothing else changes. -/
def Obligations.ModeOperationsTransformTheBlock : Prop :=
  ∀ s : State,
    ecbEncrypt s = { s with v := encipherBlock s.kw s.v, sum := 0xC6EF3720#32, rnd := 32 } ∧
    ecbDecrypt s = { s with v := decipherBlock s.kw s.v, sum := 0x00000000#32, rnd := 32 } ∧
    (let c := encipherBlock s.kw ⟨s.v.v0 ^^^ s.chain.v0, s.v.v1 ^^^ s.chain.v1⟩
     cbcEncrypt s = { s with v := c, chain := c, sum := 0xC6EF3720#32, rnd := 32 }) ∧
    (let d := decipherBlock s.kw s.v
     cbcDecrypt s = { s with
        v := ⟨d.v0 ^^^ s.chain.v0, d.v1 ^^^ s.chain.v1⟩
        chain := s.v
        prev := s.v
        sum := 0x00000000#32
        rnd := 32 })

/-- From R113 and R114: CBC decryption of what CBC encryption made, under the same chaining state, gives the plaintext
back and the same next chaining state. -/
def Obligations.CbcDecryptUndoesCbcEncrypt : Prop :=
  ∀ s t : State, t.kw = s.kw → t.chain = s.chain → t.v = (cbcEncrypt s).v →
    (cbcDecrypt t).v = s.v ∧ (cbcDecrypt t).chain = (cbcEncrypt s).chain

/-! ### Padding -/

/-- R131: the pad count; on an aligned message it is a whole block of eight 0x08 bytes. -/
def Obligations.PadCountAlwaysPads : Prop :=
  (∀ (i : Instr) (n : Nat),
    (opOf i ≠ .encrypt → padCount i n = 0) ∧ (skipOf i = true → padCount i n = 0) ∧
    (opOf i = .encrypt → skipOf i = false →
      padCount i n = 8 - n % 8 ∧ 1 ≤ padCount i n ∧ padCount i n ≤ 8 ∧ (n % 8 = 0 → padCount i n = 8) ∧
      (n + padCount i n) % 8 = 0)) ∧
  (∀ (i : Instr) (s : State), Accepted i s → opOf i = .encrypt → skipOf i = false → s.nlen % 8 = 0 →
    ∀ j, j < 8 → chunkByte s (s.nlen / 8) j = 0x08#8)

/-- R136: the chunks of an accepted encryption: the full chunks come directly from IN; the last one, where there is
padding, is the tail of the message and then PADN bytes that hold PADN. -/
def Obligations.LastChunkCarriesThePadding : Prop :=
  ∀ (i : Instr) (s : State), Accepted i s → opOf i = .encrypt →
    s.nblk = s.nlen / 8 + (if skipOf i then 0 else 1) ∧
    (∀ b j, b < s.nlen / 8 → j < 8 → chunkByte s b j = s.inByte (8 * b + j)) ∧
    (skipOf i = true → s.nlen % 8 = 0) ∧
    (skipOf i = false →
      (∀ j, j < s.nlen % 8 → chunkByte s (s.nlen / 8) j = s.inByte (8 * (s.nlen / 8) + j)) ∧
      (∀ j, s.nlen % 8 ≤ j → j < 8 → (chunkByte s (s.nlen / 8) j).toNat = 8 - s.nlen % 8 ∧ s.padn = 8 - s.nlen % 8))

/-! ### Acceptance -/

/-- R135: a legal command on a machine that is not BUSY and whose length passes the checks starts: it is BUSY and accepted
(NLEN, PADN, NBLK and BLK among what that says), KW and CHAIN are made from the registers, OUT_LEN is 0, OUT is UNSPEC (a
new draw), the operands are kept, and V, SUM, RND and PREV are untouched. -/
def Obligations.AcceptanceStartsTheCommand : Prop :=
  ∀ (i : Instr) (s : State), s.status.state ≠ .busy → BoundsOk i s → AlignOk i s →
    ∃ t, exec i s = .next t ∧ Accepted i t ∧ t.status = ⟨.busy, .none, false⟩ ∧ OperandsKept s t ∧
      (∀ j (h : j < 4), t.kw[j] =
        wordOfBytes (s.keyByte (4 * j)) (s.keyByte (4 * j + 1)) (s.keyByte (4 * j + 2)) (s.keyByte (4 * j + 3))) ∧
      (modeOf i = some .cbc → ivSuppliedOf i = true → t.chain = blockOfBytes s.ivByte) ∧
      (modeOf i = some .cbc → ivSuppliedOf i = false → t.chain = ⟨0, 0⟩) ∧
      (modeOf i ≠ some .cbc → t.chain = s.chain) ∧
      8 * t.nblk = t.nlen + t.padn ∧
      (opOf i = .encrypt → t.nblk = t.nlen / 8 + (if skipOf i then 0 else 1)) ∧
      (opOf i = .decrypt → t.nblk = t.nlen / 8) ∧
      (opOf i = .encryptBlock ∨ opOf i = .decryptBlock → t.nblk = 1) ∧
      t.v = s.v ∧ t.sum = s.sum ∧ t.rnd = s.rnd ∧ t.prev = s.prev ∧
      s.drawn ≤ t.outDraw ∧ t.outDraw < t.drawn

/-- R133: BoundsError. -/
def Obligations.BadLengthRaisesBoundsError : Prop :=
  ∀ (i : Instr) (s : State), s.status.state ≠ .busy →
    (((opOf i = .encrypt ∨ opOf i = .decrypt) ∧ s.msgCap < s.inLen.toNat) ∨
      ((opOf i = .encryptBlock ∨ opOf i = .decryptBlock) ∧ s.inLen.toNat ≠ 8)) →
    ∃ t, exec i s = .next t ∧ ErrorEntry .bounds s t ∧ t.status = ⟨.error, .bounds, false⟩ ∧ t.cmd = encode i

/-- R134: AlignmentError, after the bounds check; an encryption without SKIP starts on every length that fits. -/
def Obligations.MisalignedLengthRaisesAlignmentError : Prop :=
  ∀ (i : Instr) (s : State), s.status.state ≠ .busy → s.inLen.toNat ≤ s.msgCap →
    (s.inLen.toNat % 8 ≠ 0 → (opOf i = .decrypt ∨ (opOf i = .encrypt ∧ skipOf i = true)) →
      ∃ t, exec i s = .next t ∧ ErrorEntry .alignment s t ∧ t.status = ⟨.error, .alignment, false⟩ ∧ t.cmd = encode i) ∧
    (opOf i = .encrypt → skipOf i = false → ∃ t, exec i s = .next t ∧ t.status = ⟨.busy, .none, false⟩)

/-- R70, R132: an illegal byte written to CMD while not BUSY gives ConfigurationError at once, whatever IN_LEN holds; CMD
stores the byte. -/
def Obligations.IllegalByteRaisesConfigurationError : Prop :=
  ∀ (s : State) (c : Byte) (rest : List Event), s.events = .wr 0x0018#16 c :: rest → s.status.state ≠ .busy →
    IllegalByte c →
    ∃ t, step s = .next t ∧ ErrorEntry .configuration { s with events := rest, reply := some .ok } t ∧
      t.status = ⟨.error, .configuration, false⟩ ∧ t.status.byte = 0x07#8 ∧ t.cmd = c

/-- R171: error entry. -/
def Obligations.ErrorEntryKeepsOperandsAndDrop : Prop :=
  ∀ (e : ErrorCause) (s : State),
    ErrorEntry e s (raiseError e s) ∧ (raiseError e s).status.wdrop = s.status.wdrop ∧ (raiseError e s).cmd = s.cmd

/-- R172: a write of `c` to CMD while not BUSY, in the order of the checks. -/
def Obligations.ChecksAreMadeInPriorityOrder : Prop :=
  ∀ (s : State) (c : Byte) (rest : List Event), s.events = .wr 0x0018#16 c :: rest → s.status.state ≠ .busy →
    ∃ t, step s = .next t ∧
      (decode c = none → t.status = ⟨.error, .configuration, false⟩) ∧
      (∀ i, decode c = some i → ¬ BoundsOk i s → t.status = ⟨.error, .bounds, false⟩) ∧
      (∀ i, decode c = some i → BoundsOk i s → ¬ AlignOk i s → t.status = ⟨.error, .alignment, false⟩) ∧
      (∀ i, decode c = some i → BoundsOk i s → AlignOk i s → t.status = ⟨.busy, .none, false⟩)

/-- R147: an encryption with SKIP = 1 ends in AlignmentError exactly on a misaligned length that fits; on a length that does
not fit it is BoundsError. -/
def Obligations.SkipEncryptionAlignsOrFails : Prop :=
  ∀ (i : Instr) (s : State), s.status.state ≠ .busy → opOf i = .encrypt → skipOf i = true →
    ((∃ t, exec i s = .next t ∧ t.status.state = .error ∧ t.status.err = .alignment) ↔
      (s.inLen.toNat ≤ s.msgCap ∧ s.inLen.toNat % 8 ≠ 0)) ∧
    (s.msgCap < s.inLen.toNat → ∃ t, exec i s = .next t ∧ t.status.state = .error ∧ t.status.err = .bounds)

/-! ### Completion -/

/-- R140: ENC.ECB: its start or the error of it, and its complete step. Its chunks leave CHAIN
untouched (R26). -/
def Obligations.EncEcbCompletes : Prop :=
  ∀ (skip iv : Bool) (s : State),
    MessageStarts (.encEcb skip iv) skip s ∧
    (Accepted (.encEcb skip iv) s →
      ∃ u t, afterChunks (.encEcb skip iv) s = .next u ∧ u.chain = s.chain ∧ exec (.encEcb skip iv) s = .next t ∧
        DoneWith (s.nlen + s.padn) (fun a => byteOfBlock (encipherBlock s.kw (chunkBlock s (a / 8))) (a % 8)) s t)

/-- R141: ENC.CBC: its start or the error of it, and its complete step. After its chunks CHAIN is the last
ciphertext block (R117). -/
def Obligations.EncCbcCompletes : Prop :=
  ∀ (skip iv : Bool) (s : State),
    MessageStarts (.encCbc skip iv) skip s ∧
    (Accepted (.encCbc skip iv) s →
      ∃ u t, afterChunks (.encCbc skip iv) s = .next u ∧
        (u.chain = if s.nblk = 0 then s.chain else cbcCipher s.kw s.chain (chunkBlock s) (s.nblk - 1)) ∧
        exec (.encCbc skip iv) s = .next t ∧
        DoneWith (s.nlen + s.padn) (fun a => byteOfBlock (cbcCipher s.kw s.chain (chunkBlock s) (a / 8)) (a % 8)) s t)

/-- R142: DEC.ECB: its start or the error of it, and its complete step: with SKIP the whole output; without it, the output
less the count in its last byte, or PaddingError where that count is greater than NLEN or NLEN is 0. Its chunks leave
CHAIN untouched (R26). -/
def Obligations.DecEcbCompletes : Prop :=
  ∀ (skip iv : Bool) (s : State),
    MessageStarts (.decEcb skip iv) true s ∧
    (Accepted (.decEcb skip iv) s →
      let out := fun a => byteOfBlock (decipherBlock s.kw (inBlock s (a / 8))) (a % 8)
      (∃ u, afterChunks (.decEcb skip iv) s = .next u ∧ u.chain = s.chain) ∧
      (skip = true → ∃ t, exec (.decEcb skip iv) s = .next t ∧ DoneWith s.nlen out s t) ∧
      (skip = false → s.nlen ≠ 0 → (out (s.nlen - 1)).toNat ≤ s.nlen →
        ∃ t, exec (.decEcb skip iv) s = .next t ∧ DoneWith (s.nlen - (out (s.nlen - 1)).toNat) out s t) ∧
      (skip = false → (s.nlen = 0 ∨ s.nlen < (out (s.nlen - 1)).toNat) →
        ∃ t, exec (.decEcb skip iv) s = .next t ∧ ErrorEntry .padding s t))

/-- R143: DEC.CBC: its start or the error of it, and its complete step, as in R142. After its chunks CHAIN is the last
ciphertext block read (R117). -/
def Obligations.DecCbcCompletes : Prop :=
  ∀ (skip iv : Bool) (s : State),
    MessageStarts (.decCbc skip iv) true s ∧
    (Accepted (.decCbc skip iv) s →
      let out := fun a => byteOfBlock (cbcPlain s.kw s.chain (inBlock s) (a / 8)) (a % 8)
      let chain := if s.nblk = 0 then s.chain else inBlock s (s.nblk - 1)
      (∃ u, afterChunks (.decCbc skip iv) s = .next u ∧ u.chain = chain) ∧
      (skip = true → ∃ t, exec (.decCbc skip iv) s = .next t ∧ DoneWith s.nlen out s t) ∧
      (skip = false → s.nlen ≠ 0 → (out (s.nlen - 1)).toNat ≤ s.nlen →
        ∃ t, exec (.decCbc skip iv) s = .next t ∧ DoneWith (s.nlen - (out (s.nlen - 1)).toNat) out s t) ∧
      (skip = false → (s.nlen = 0 ∨ s.nlen < (out (s.nlen - 1)).toNat) →
        ∃ t, exec (.decCbc skip iv) s = .next t ∧ ErrorEntry .padding s t))

/-- R144, R145: ENCB and DECB: their start, or BoundsError where IN_LEN is not 8, and their complete step: one block, no
padding, CHAIN untouched by its chunk. -/
def Obligations.BlockCommandsComplete : Prop :=
  ∀ s : State,
    (∀ i, (i = .encb ∨ i = .decb) → s.status.state ≠ .busy →
      (s.inLen.toNat ≠ 8 → ∃ t, exec i s = .next t ∧ ErrorEntry .bounds s t) ∧
      (s.inLen.toNat = 8 → ∃ t, exec i s = .next t ∧ Accepted i t)) ∧
    (Accepted .encb s → ∃ u t, afterChunks .encb s = .next u ∧ u.chain = s.chain ∧ exec .encb s = .next t ∧
      DoneWith 8 (byteOfBlock (encipherBlock s.kw (inBlock s 0))) s t) ∧
    (Accepted .decb s → ∃ u t, afterChunks .decb s = .next u ∧ u.chain = s.chain ∧ exec .decb s = .next t ∧
      DoneWith 8 (byteOfBlock (decipherBlock s.kw (inBlock s 0))) s t)

/-- R117: after the last chunk of a command, and before its finish, from which the completion follows: in CBC, CHAIN holds
the last ciphertext chunk, the last one written to OUT or read from IN; no other command changes it. KW, OPC, NLEN, PADN
and NBLK are as acceptance set them, BLK = NBLK, RND = 32, and PREV changes only in CBC decryption. CHAIN is not carried
into the next CBC command. -/
def Obligations.LastChunkLeavesChainAndRegisters : Prop :=
  (∀ (i : Instr) (s : State), Accepted i s →
    ∃ u, afterChunks i s = .next u ∧ exec i s = .next (finishOf i u) ∧ CommandRegistersKept s u ∧
      (s.nblk ≠ 0 → u.rnd = 32) ∧
      (opOf i = .encrypt → modeOf i = some .cbc → s.nblk ≠ 0 →
        u.chain = blockOfBytes fun j => u.outByte (8 * (s.nblk - 1) + j)) ∧
      (opOf i = .decrypt → modeOf i = some .cbc → s.nblk ≠ 0 → u.chain = inBlock s (s.nblk - 1)) ∧
      (modeOf i = some .cbc → s.nblk = 0 → u.chain = s.chain) ∧
      (modeOf i ≠ some .cbc → u.chain = s.chain) ∧
      (¬ (opOf i = .decrypt ∧ modeOf i = some .cbc) → u.prev = s.prev)) ∧
  (∀ (j : Instr) (s : State) (c : Block), modeOf j = some .cbc → s.status.state ≠ .busy →
    exec j { s with chain := c } = exec j s)

/-- R139: the strip: PaddingError on an empty message or a last byte greater than NLEN, with WDROP as it was; otherwise DONE
with the output less the count in its last byte, taken literally. -/
def Obligations.StripTakesTheLastByteLiterally : Prop :=
  ∀ (i : Instr) (s : State), Accepted i s → opOf i = .decrypt → skipOf i = false →
    let out := fun a => byteOfBlock
      (if modeOf i = some .cbc then cbcPlain s.kw s.chain (inBlock s) (a / 8)
        else decipherBlock s.kw (inBlock s (a / 8))) (a % 8)
    ((s.nlen = 0 ∨ s.nlen < (out (s.nlen - 1)).toNat) →
      ∃ t, exec i s = .next t ∧ ErrorEntry .padding s t ∧ t.status = ⟨.error, .padding, s.status.wdrop⟩ ∧ t.cmd = s.cmd) ∧
    (s.nlen ≠ 0 → (out (s.nlen - 1)).toNat ≤ s.nlen →
      ∃ t, exec i s = .next t ∧ t.status = ⟨.done, .none, s.status.wdrop⟩ ∧
        t.outLen.toNat = s.nlen - (out (s.nlen - 1)).toNat)

/-- R138, R148: the output length of each command that ends in DONE, and that an encryption always does: with SKIP = 0 its
output is longer than its input, with SKIP = 1 it has the same length. -/
def Obligations.OutputLengths : Prop :=
  ∀ (i : Instr) (s t : State), Accepted i s → exec i s = .next t →
    (opOf i = .encrypt → t.status.state = .done ∧
      (skipOf i = false →
        t.outLen.toNat = s.nlen + s.padn ∧ t.outLen.toNat = 8 * (s.inLen.toNat / 8) + 8 ∧ s.inLen.toNat < t.outLen.toNat) ∧
      (skipOf i = true → t.outLen = s.inLen)) ∧
    (opOf i = .decrypt → skipOf i = true → t.status.state = .done ∧ t.outLen = s.inLen) ∧
    (opOf i = .decrypt → skipOf i = false → t.status.state = .done →
      t.outLen.toNat = s.inLen.toNat - (byteOfBlock
        (if modeOf i = some .cbc then cbcPlain s.kw s.chain (inBlock s) ((s.inLen.toNat - 1) / 8)
          else decipherBlock s.kw (inBlock s ((s.inLen.toNat - 1) / 8))) ((s.inLen.toNat - 1) % 8)).toNat) ∧
    (opOf i = .encryptBlock ∨ opOf i = .decryptBlock → t.status.state = .done ∧ t.outLen = 8#32)

/-- R118: with a zero initial chaining state, the first ciphertext chunk of CBC is that of ECB. -/
def Obligations.ZeroChainStartsLikeEcb : Prop :=
  ∀ (skip iv : Bool) (s a b : State), s.status.state ≠ .busy →
    (iv = false ∨ ∀ j (h : j < 8), s.iv[j] = 0x00#8) →
    exec (.encCbc skip iv) s = .next a → exec (.encEcb skip iv) s = .next b → a.status.state = .busy →
    ∃ c d, exec (.encCbc skip iv) a = .next c ∧ exec (.encEcb skip iv) b = .next d ∧ c.outLen = d.outLen ∧
      ∀ j, j < 8 → j < c.outLen.toNat → c.outByte j = d.outByte j

/-- R144, R145 (their corner cases): a block command gives what the ECB command with SKIP gives on eight bytes. -/
def Obligations.BlockCommandsAreEcbOnOneBlock : Prop :=
  ∀ (s : State) (iv : Bool), s.status.state ≠ .busy → s.inLen.toNat = 8 →
    ∀ i j : Instr, (i = .encb ∧ j = .encEcb true iv) ∨ (i = .decb ∧ j = .decEcb true iv) →
      ∃ a b c d, exec i s = .next a ∧ exec i a = .next c ∧ exec j s = .next b ∧ exec j b = .next d ∧
        c.status = ⟨.done, .none, false⟩ ∧ d.status = c.status ∧ d.outLen = c.outLen ∧ c.outLen = 8#32 ∧
        ∀ k, k < 8 → d.outByte k = c.outByte k

/-- R146: the round trip of a message through encryption and decryption, the host copying OUT to IN in between: `s` is
the machine before the encryption, `c` after it, `u` before the decryption, `p` after it. -/
def Obligations.DecryptionUndoesEncryption : Prop :=
  ∀ (enc dec : Instr) (skip iv : Bool),
    (enc = .encEcb skip iv ∧ dec = .decEcb skip iv) ∨ (enc = .encCbc skip iv ∧ dec = .decCbc skip iv) →
  ∀ s : State, s.status.state ≠ .busy →
    (skip = false → s.inLen.toNat + 8 ≤ s.msgCap) →
    (skip = true → s.inLen.toNat ≤ s.msgCap ∧ s.inLen.toNat % 8 = 0) →
    ∃ e c, exec enc s = .next e ∧ exec enc e = .next c ∧ c.status.state = .done ∧
      ∀ u : State, u.status.state ≠ .busy → u.capacity = s.capacity → u.key = s.key → u.iv = s.iv →
        u.inLen = c.outLen → (∀ a, a < c.outLen.toNat → u.inByte a = c.outByte a) →
        ∃ d p, exec dec u = .next d ∧ exec dec d = .next p ∧ p.status.state = .done ∧ p.outLen = s.inLen ∧
          ∀ a, a < s.inLen.toNat → p.outByte a = s.inByte a

/-! ### What a command depends on -/

/-- R56: a command never reads IN at or beyond NLEN: the result is the same whatever those bytes hold. -/
def Obligations.BytesBeyondTheLengthDoNotMatter : Prop :=
  ∀ (i : Instr) (s : State) (m : Memory) (d : Nat), Accepted i s →
    (∀ a, a < s.nlen → State.inByte { s with inMem := m, inDraw := d } a = s.inByte a) →
    ∃ t u, exec i s = .next t ∧ exec i { s with inMem := m, inDraw := d } = .next u ∧ u.status = t.status ∧
      u.outLen = t.outLen ∧ ∀ a, a < t.outLen.toNat → u.outByte a = t.outByte a

/-- R28, R117: no output depends on what an internal register held before the command, CHAIN among them: acceptance and
completion give the host the same from any of their values. -/
def Obligations.InternalRegistersDoNotMatter : Prop :=
  ∀ (i : Instr) (s : State) (kw : KeyWords) (chain v prev : Block) (sum : Word) (opc : Byte)
    (rnd nlen padn nblk blk : Nat), s.status.state ≠ .busy →
    ∃ s₁ u₁, exec i s = .next s₁ ∧
      exec i { s with kw, chain, v, prev, sum, opc, rnd, nlen, padn, nblk, blk } = .next u₁ ∧ SameToHost s₁ u₁ ∧
      (s₁.status.state = .busy →
        ∃ s₂ u₂, exec i s₁ = .next s₂ ∧ exec i u₁ = .next u₂ ∧ SameToHost s₂ u₂)

/-- R51, R54, R213: whatever host transactions fall between acceptance and the ENGINE's turn, the command ends as if it
had completed at once: the same STATE, ERR, OUT_LEN and result, from the operands it was accepted with. -/
def Obligations.HostTransactionsWhileBusyDoNotChangeTheResult : Prop :=
  ∀ (i : Instr) (s : State) (between rest : List Event), Accepted i s → (∀ e ∈ between, e.isHost = true) →
    s.events = between ++ .engine :: rest →
    ∃ t u, Sys2Proof.core.run (between.length + 1) s = .next t ∧ exec i s = .next u ∧ t.events = rest ∧
      t.status.state = u.status.state ∧ t.status.err = u.status.err ∧ t.outLen = u.outLen ∧
      (∀ a, a < u.outLen.toNat → t.outByte a = u.outByte a) ∧
      t.key = s.key ∧ t.iv = s.iv ∧ t.cmd = s.cmd ∧ t.inLen = s.inLen ∧ ∀ a, t.inByte a = s.inByte a

/-- R137, R211: a BUSY period ends: after the host transactions that are scheduled, the complete step follows. -/
def Obligations.BusyPeriodEnds : Prop :=
  ∀ (i : Instr) (s : State), Accepted i s → (∀ e ∈ s.events, e.isHost = true) →
    ∃ t, Sys2Proof.core.run (s.events.length + 1) s = .next t ∧ t.events = [] ∧
      (t.status.state = .done ∨ t.status.state = .error)

/-! ### The step -/

/-- R130, R60: the byte a host writes to CMD while not BUSY is the command that the step runs: the step is `exec` of the
decoded command, with the transaction taken from the schedule and answered OK. -/
def Obligations.StepRunsTheWrittenCommand : Prop :=
  ∀ (s : State) (c : Byte) (i : Instr) (rest : List Event), s.events = .wr 0x0018#16 c :: rest →
    s.status.state ≠ .busy → decode c = some i → i.wellFormed = true →
    step s = exec i { s with events := rest, reply := some .ok }

/-- R137, R185: the ENGINE's turn, scheduled or with nothing scheduled: while BUSY it is `exec` of the command OPC decodes
to; otherwise nothing changes. -/
def Obligations.StepCompletesTheAcceptedCommand : Prop :=
  ∀ (s : State) (rest : List Event), s.events = .engine :: rest ∨ (s.events = [] ∧ rest = []) →
    (∀ i, s.status.state = .busy → decode s.opc = some i → step s = exec i { s with events := rest }) ∧
    (s.status.state ≠ .busy → step s = .next { s with events := rest })

/-- The very next step of `withFetchWord` on a legal byte runs its command (model's choice, log entry 2). -/
def Obligations.FetchWordRunsNext : Prop :=
  ∀ (s : State) (w : Nat) (i : Instr), decodeTableWord 8 w = some i →
    step (s.withFetchWord 8 w) =
      exec i { s with
        reply := some .ok
        status := if s.status.state = .busy then ⟨.idle, .none, false⟩ else s.status }

/-! ### Host transactions -/

/-- R42, R174: a transaction at an unmapped address answers BUSERR and changes no state. -/
def Obligations.UnmappedAddressesAnswerBusErr : Prop :=
  ∀ (s : State) (a : Addr) (d : Byte) (rest : List Event), s.events = .rd a :: rest ∨ s.events = .wr a d :: rest →
    (a.toNat = 0x001B ∨ (0x0024 ≤ a.toNat ∧ a.toNat ≤ 0x3FFF) ∨ (0x4000 + s.msgCap ≤ a.toNat ∧ a.toNat ≤ 0x7FFF) ∨
      0x8000 + s.msgCap + 8 ≤ a.toNat) →
    step s = .next { s with events := rest, reply := some .busErr }

/-- R45, R12 to R24: what a read of each mapped location returns. OUT and OUT_LEN: outside a BUSY period. -/
def Obligations.ReadsReturnTheRegisters : Prop :=
  ∀ (s : State) (a : Addr) (rest : List Event), s.events = .rd a :: rest →
    let answers := fun b : Byte => step s = .next { s with events := rest, reply := some (.data b) }
    (∀ i (h : i < 16), a.toNat = 0x0000 + i → answers s.key[i]) ∧
    (∀ i (h : i < 8), a.toNat = 0x0010 + i → answers s.iv[i]) ∧
    (a.toNat = 0x0018 → answers s.cmd) ∧
    (a.toNat = 0x0019 → answers s.status.byte) ∧
    (a.toNat = 0x001A → answers s.irqEn) ∧
    (∀ i, i < 4 → a.toNat = 0x001C + i → answers ((s.inLen >>> (8 * (3 - i))).setWidth 8)) ∧
    (∀ i, i < s.msgCap → a.toNat = 0x4000 + i → answers (s.inByte i)) ∧
    (s.status.state ≠ .busy → ∀ i, i < 4 → a.toNat = 0x0020 + i → answers ((s.outLen >>> (8 * (3 - i))).setWidth 8)) ∧
    (s.status.state ≠ .busy → ∀ i, i < s.msgCap + 8 → a.toNat = 0x8000 + i → answers (s.outByte i))

/-- R45: a read of OUT or OUT_LEN while BUSY answers with the byte of a new draw, whose value nothing constrains, and the
draw is counted, so that the next such read is another one (log entry 15); nothing else changes. -/
def Obligations.BusyReadsOfResultsAreDraws : Prop :=
  ∀ (s : State) (a : Addr) (rest : List Event), s.events = .rd a :: rest → s.status.state = .busy →
    ((0x0020 ≤ a.toNat ∧ a.toNat < 0x0024) ∨ (0x8000 ≤ a.toNat ∧ a.toNat < 0x8000 + s.msgCap + 8)) →
    step s = .next { s with
      events := rest
      reply := some (.data (Config.unspecByte s.drawn 0))
      drawn := s.drawn + 1 }

/-- R45, R48: no read has a side effect: only the schedule, the answer and the count of draws move. -/
def Obligations.ReadsHaveNoSideEffects : Prop :=
  ∀ (s : State) (a : Addr) (rest : List Event), s.events = .rd a :: rest →
    ∃ r n, step s = .next { s with events := rest, reply := some r, drawn := n } ∧
      (s.status.state ≠ .busy → n = s.drawn)

/-- R12, R13, R21, R23, R44: what a write to KEY, IV, IN_LEN or IN does while not BUSY: the byte is stored, and nothing
else changes. -/
def Obligations.WritesStoreTheirByte : Prop :=
  ∀ (s : State) (a : Addr) (d : Byte) (rest : List Event), s.events = .wr a d :: rest → s.status.state ≠ .busy →
    (∀ i (h : i < 16), a.toNat = 0x0000 + i →
      step s = .next { s with key := s.key.set i d, events := rest, reply := some .ok }) ∧
    (∀ i (h : i < 8), a.toNat = 0x0010 + i →
      step s = .next { s with iv := s.iv.set i d, events := rest, reply := some .ok }) ∧
    (∀ i, i < 4 → a.toNat = 0x001C + i →
      ∃ n : Word, step s = .next { s with inLen := n, events := rest, reply := some .ok } ∧
        ∀ j, j < 4 → (n >>> (8 * (3 - j))).setWidth 8 = if j = i then d else (s.inLen >>> (8 * (3 - j))).setWidth 8) ∧
    (∀ i, i < s.msgCap → a.toNat = 0x4000 + i →
      ∃ m : Memory, step s = .next { s with inMem := m, events := rest, reply := some .ok } ∧
        ∀ j, State.inByte { s with inMem := m } j = if j = i then d else s.inByte j)

/-- R44, R175: while BUSY, a write to KEY, IV, CMD, STATUS, IN_LEN or IN answers OK, stores nothing and sets WDROP. -/
def Obligations.WritesWhileBusyAreDropped : Prop :=
  ∀ (s : State) (a : Addr) (d : Byte) (rest : List Event), s.events = .wr a d :: rest → s.status.state = .busy →
    (a.toNat < 0x001A ∨ (0x001C ≤ a.toNat ∧ a.toNat < 0x0020) ∨
      (0x4000 ≤ a.toNat ∧ a.toNat < 0x4000 + s.msgCap)) →
    step s = .next { s with
      status := { s.status with wdrop := true }
      events := rest
      reply := some .ok }

/-- R43: a write to OUT_LEN or OUT answers OK and changes no state, in every STATE. -/
def Obligations.WritesToResultsAreIgnored : Prop :=
  ∀ (s : State) (a : Addr) (d : Byte) (rest : List Event), s.events = .wr a d :: rest →
    ((0x0020 ≤ a.toNat ∧ a.toNat < 0x0024) ∨ (0x8000 ≤ a.toNat ∧ a.toNat < 0x8000 + s.msgCap + 8)) →
    step s = .next { s with events := rest, reply := some .ok }

/-- R20, R44: a write to IRQ_EN is taken in every STATE; it stores bit 0 and ignores the reserved bits. -/
def Obligations.IrqEnStoresOnlyItsBit : Prop :=
  ∀ (s : State) (d : Byte) (rest : List Event), s.events = .wr 0x001A#16 d :: rest →
    ∃ e : Byte, step s = .next { s with irqEn := e, events := rest, reply := some .ok } ∧
      e.getLsbD 0 = d.getLsbD 0 ∧ ∀ k, 1 ≤ k → e.getLsbD k = false

/-- R19: a write to STATUS while not BUSY acknowledges: STATE = IDLE, ERR = 0, WDROP = 0, whatever byte is written, and every
other register unchanged; while BUSY it is dropped and sets WDROP. A read of STATUS changes nothing. -/
def Obligations.StatusWriteAcknowledges : Prop :=
  ∀ (s : State) (rest : List Event),
    (∀ d : Byte, s.events = .wr 0x0019#16 d :: rest →
      (s.status.state ≠ .busy →
        step s = .next { s with status := ⟨.idle, .none, false⟩, events := rest, reply := some .ok }) ∧
      (s.status.state = .busy →
        step s = .next { s with status := ⟨.busy, s.status.err, true⟩, events := rest, reply := some .ok })) ∧
    (s.events = .rd 0x0019#16 :: rest →
      step s = .next { s with events := rest, reply := some (.data s.status.byte) })

/-! ### Status, interrupt and reset -/

/-- R15, R17, R170: the fields of the STATUS byte. -/
def Obligations.StatusByteHoldsItsFields : Prop :=
  ∀ st : Status,
    st.byte.extractLsb' 0 2 =
      (match st.state with | .idle => 0b00#2 | .busy => 0b01#2 | .done => 0b10#2 | .error => 0b11#2) ∧
    st.byte.extractLsb' 2 3 =
      (match st.err with
        | .none => 0#3 | .configuration => 1#3 | .alignment => 2#3 | .bounds => 3#3 | .padding => 4#3) ∧
    st.byte.getLsbD 5 = st.wdrop ∧ st.byte.extractLsb' 6 2 = 0b00#2

/-- The STATUS bytes a host can read (10_state.md, the paragraph after R19). -/
def Obligations.OnlyTenStatusBytesOccur : Prop :=
  ∀ s : State, s.Inv →
    s.status.byte ∈ [0x00#8, 0x01#8, 0x02#8, 0x07#8, 0x0B#8, 0x0F#8, 0x13#8, 0x21#8, 0x22#8, 0x33#8]

/-- R16: the only changes of STATE, with the event that makes each. -/
def Obligations.StateChangesOnlyAsListed : Prop :=
  ∀ s t : State, step s = .next t → t.status.state ≠ s.status.state →
    (s.status.state ≠ .busy ∧ ∃ c rest, s.events = .wr 0x0018#16 c :: rest ∧
      ((t.status.state = .busy ∧ ∃ i, decode c = some i ∧ BoundsOk i s ∧ AlignOk i s) ∨
        (t.status.state = .error ∧ ∀ i, decode c = some i → ¬ (BoundsOk i s ∧ AlignOk i s)))) ∨
    (s.status.state = .busy ∧ (t.status.state = .done ∨ t.status.state = .error) ∧
      (s.events = [] ∨ ∃ rest, s.events = .engine :: rest)) ∨
    ((s.status.state = .done ∨ s.status.state = .error) ∧ t.status.state = .idle ∧
      ∃ d rest, s.events = .wr 0x0019#16 d :: rest) ∨
    (t.status.state = .idle ∧ ∃ rest, s.events = .reset :: rest)

/-- R18: every dropped write sets WDROP; a command's acceptance, an acknowledge and reset clear it; every other step, the
completion of a command among them, leaves it; and it is never 1 while IDLE. -/
def Obligations.DropFlagChangesOnlyAsListed : Prop :=
  ∀ s t : State, step s = .next t →
    let dropped := s.status.state = .busy ∧ ∃ a d rest, s.events = .wr a d :: rest ∧
      (a.toNat < 0x001A ∨ (0x001C ≤ a.toNat ∧ a.toNat < 0x0020) ∨ (0x4000 ≤ a.toNat ∧ a.toNat < 0x4000 + s.msgCap))
    let cleared := (s.status.state ≠ .busy ∧
        ∃ d rest, s.events = .wr 0x0018#16 d :: rest ∨ s.events = .wr 0x0019#16 d :: rest) ∨
      ∃ rest, s.events = .reset :: rest
    (dropped → t.status.wdrop = true) ∧ (cleared → t.status.wdrop = false) ∧
    (¬ dropped → ¬ cleared → t.status.wdrop = s.status.wdrop) ∧
    ((s.status.state = .idle → s.status.wdrop = false) → t.status.state = .idle → t.status.wdrop = false)

/-- R176: `irq` and the four ways it is cleared. -/
def Obligations.InterruptFollowsStateAndEnable : Prop :=
  (∀ s : State, s.irq = true ↔ s.irqEn.getLsbD 0 = true ∧ (s.status.state = .done ∨ s.status.state = .error)) ∧
  (∀ s t : State, step s = .next t → s.irq = true →
    (t.irq = false ↔
      (∃ d rest, s.events = .wr 0x0019#16 d :: rest) ∨
      (t.status.state = .busy ∧ ∃ c rest, s.events = .wr 0x0018#16 c :: rest) ∨
      (∃ d rest, s.events = .wr 0x001A#16 d :: rest ∧ d.getLsbD 0 = false) ∨
      (∃ rest, s.events = .reset :: rest)))

/-- R200, R201: RESET, in any STATE, BUSY among them: every host-visible register at its reset value, IN and OUT UNSPEC
(nothing listed, read from new draws), every internal register UNSPEC, `irq` deasserted. -/
def Obligations.ResetSetsTheResetValues : Prop :=
  ∀ (s : State) (rest : List Event), s.events = .reset :: rest →
    ∃ t, step s = .next t ∧ (∀ i (h : i < 16), t.key[i] = 0x00#8) ∧ (∀ i (h : i < 8), t.iv[i] = 0x00#8) ∧
      t.cmd = 0x00#8 ∧ t.status = ⟨.idle, .none, false⟩ ∧ t.status.byte = 0x00#8 ∧ t.irqEn = 0x00#8 ∧
      t.inLen = 0x00000000#32 ∧ t.outLen = 0x00000000#32 ∧ t.inMem = [] ∧ t.outMem = [] ∧
      s.drawn ≤ t.inDraw ∧ s.drawn ≤ t.outDraw ∧ InternalsDrawn s t ∧ t.irq = false ∧
      t.capacity = s.capacity ∧ t.events = rest

/-- R12 to R22: the reset state the model starts in has the reset values. -/
def Obligations.ResetStateHasTheResetValues : Prop :=
  (∀ i (h : i < 16), State.reset.key[i] = 0x00#8) ∧ (∀ i (h : i < 8), State.reset.iv[i] = 0x00#8) ∧
  State.reset.cmd = 0x00#8 ∧ State.reset.status.byte = 0x00#8 ∧ State.reset.irqEn = 0x00#8 ∧
  State.reset.inLen = 0x00000000#32 ∧ State.reset.outLen = 0x00000000#32 ∧ State.reset.irq = false

/-! ### Whole-machine rules -/

/-- R30, R52: the operand registers and CMD change only by a host write to them while not BUSY, or RESET; IRQ_EN only by a
host write to it, or RESET; MSG_CAP never. The engine writes none of them. -/
def Obligations.OperandsChangeOnlyByHostWrites : Prop :=
  ∀ s t : State, step s = .next t →
    t.capacity = s.capacity ∧
    ((∃ rest, s.events = .reset :: rest) ∨
      ((t.key = s.key ∨ (s.status.state ≠ .busy ∧ ∃ a d rest, s.events = .wr a d :: rest ∧ a.toNat < 0x0010)) ∧
      (t.iv = s.iv ∨ (s.status.state ≠ .busy ∧
        ∃ a d rest, s.events = .wr a d :: rest ∧ 0x0010 ≤ a.toNat ∧ a.toNat < 0x0018)) ∧
      (t.cmd = s.cmd ∨ (s.status.state ≠ .busy ∧ ∃ d rest, s.events = .wr 0x0018#16 d :: rest)) ∧
      (t.irqEn = s.irqEn ∨ ∃ d rest, s.events = .wr 0x001A#16 d :: rest) ∧
      (t.inLen = s.inLen ∨ (s.status.state ≠ .busy ∧
        ∃ a d rest, s.events = .wr a d :: rest ∧ 0x001C ≤ a.toNat ∧ a.toNat < 0x0020)) ∧
      ∀ j, t.inByte j = s.inByte j ∨ (s.status.state ≠ .busy ∧
        ∃ a d rest, s.events = .wr a d :: rest ∧ a.toNat = 0x4000 + j ∧ t.inByte j = d)))

/-- R206: OUT and OUT_LEN stay as they are until the next accepted CMD write, the completion of a command, or RESET; a
STATUS acknowledge among the steps that keep them. -/
def Obligations.ResultsStayUntilTheNextCommand : Prop :=
  ∀ s t : State, step s = .next t →
    (t.outLen = s.outLen ∧ ∀ a, t.outByte a = s.outByte a) ∨
    (s.status.state ≠ .busy ∧ ∃ c rest, s.events = .wr 0x0018#16 c :: rest) ∨
    (s.status.state = .busy ∧ (s.events = [] ∨ ∃ rest, s.events = .engine :: rest)) ∨
    (∃ rest, s.events = .reset :: rest)

/-- Every step keeps the invariant: the canonical form and range of the buffers, R17, R18, R20, the ranges of R27, and
that BUSY is always with an accepted command whose operands are unchanged (R30). -/
def Obligations.StepKeepsTheInvariant : Prop :=
  ∀ s t : State, s.Inv → step s = .next t → t.Inv

/-- The reset state meets the invariant, whatever the free values are. -/
def Obligations.ResetMeetsTheInvariant : Prop := State.reset.Inv

/-- R82, R110: from a state that meets the invariant no step stops: the codec's bounds are never broken and only a legal
command completes. -/
def Obligations.InvariantStatesNeverStop : Prop :=
  ∀ s : State, s.Inv → ∃ t, step s = .next t
end

