-- ==== Sys2Proof/Laws/Memory.lean ====
section
/-! SUPPORT. The laws of the canonical memory: reading after writing, and that every operation keeps the form. -/

namespace Sys2Proof.Machine

@[simp] theorem Memory.find_nil (i : Nat) : Memory.find [] i = none := rfl

theorem Memory.find_cons (a : Nat) (b : Byte) (m : Memory) (i : Nat) :
    Memory.find ((a, b) :: m) i = if i = a then some b else m.find i := rfl

theorem Memory.find_store_self (m : Memory) (i : Nat) (d : Byte) : (m.store i d).find i = some d := by
  induction m with
  | nil => simp [Memory.store, Memory.find]
  | cons c m ih =>
    simp only [Memory.store]
    split
    · simp [Memory.find]
    · split
      · next h => simp [Memory.find, h]
      · next h => simp [Memory.find, h, ih]

theorem Memory.find_store_ne (m : Memory) {i j : Nat} (d : Byte) (h : j ≠ i) : (m.store i d).find j = m.find j := by
  induction m with
  | nil => simp [Memory.store, Memory.find, h]
  | cons c m ih =>
    simp only [Memory.store]
    split
    · simp [Memory.find, h]
    · split
      · next h' => subst h'; simp [Memory.find, h]
      · simp [Memory.find, ih]

/-- Read after write. -/
@[simp] theorem Memory.find_store (m : Memory) (i j : Nat) (d : Byte) :
    (m.store i d).find j = if j = i then some d else m.find j := by
  split
  · next h => rw [h, Memory.find_store_self]
  · next h => exact Memory.find_store_ne m d h

/-- Bytes below the cut stay, those above are no longer listed. -/
@[simp] theorem Memory.find_truncate (m : Memory) (n i : Nat) :
    (m.truncate n).find i = if i < n then m.find i else none := by
  induction m with
  | nil => simp [Memory.truncate, Memory.find]
  | cons c m ih =>
    simp only [Memory.truncate] at ih
    simp only [Memory.truncate, List.filter_cons]
    by_cases hc : c.1 < n
    · by_cases hi : i = c.1
      · simp [hc, hi, Memory.find]
      · simp [hc, hi, Memory.find, ih]
    · by_cases hi : i = c.1
      · subst hi; simp [hc, ih]
      · simp [hc, hi, Memory.find, ih]

theorem Memory.above_iff (a : Nat) (m : Memory) : Memory.above a m = true ↔ ∀ c ∈ m, a < c.1 := by
  simp [Memory.above]

theorem Memory.wf_cons (c : Host.Cell) (m : Memory) :
    Memory.wf (c :: m) = true ↔ (∀ x ∈ m, c.1 < x.1) ∧ Memory.wf m = true := by
  simp [Memory.wf, Memory.above]

theorem Memory.mem_store {m : Memory} {i : Nat} {d : Byte} {c : Host.Cell} (h : c ∈ m.store i d) :
    c = (i, d) ∨ c ∈ m := by
  induction m with
  | nil => simpa [Memory.store] using h
  | cons x m ih =>
    simp only [Memory.store] at h
    split at h
    · simpa using h
    · split at h
      · next hi => subst hi; rcases List.mem_cons.1 h with h | h <;> simp [h]
      · rcases List.mem_cons.1 h with h | h
        · simp [h]
        · rcases ih h with h | h <;> simp [h]

/-- A write keeps the canonical form. -/
theorem Memory.wf_store {m : Memory} (h : m.wf = true) (i : Nat) (d : Byte) : (m.store i d).wf = true := by
  induction m with
  | nil => rfl
  | cons c m ih =>
    obtain ⟨hc, hm⟩ := (Memory.wf_cons c m).1 h
    simp only [Memory.store]
    split
    · next hi =>
      refine (Memory.wf_cons _ _).2 ⟨fun x hx => ?_, h⟩
      rcases List.mem_cons.1 hx with hx | hx
      · simpa [hx] using hi
      · exact Nat.lt_trans hi (hc x hx)
    · next hlt =>
      split
      · next he => exact (Memory.wf_cons _ _).2 ⟨hc, hm⟩
      · next hne =>
        refine (Memory.wf_cons _ _).2 ⟨fun x hx => ?_, ih hm⟩
        rcases Memory.mem_store hx with hx | hx
        · subst hx; show c.1 < i; omega
        · exact hc x hx

/-- Forgetting bytes keeps the canonical form. -/
theorem Memory.wf_truncate {m : Memory} (h : m.wf = true) (n : Nat) : (m.truncate n).wf = true := by
  induction m with
  | nil => rfl
  | cons c m ih =>
    obtain ⟨hc, hm⟩ := (Memory.wf_cons c m).1 h
    have ih := ih hm
    simp only [Memory.truncate] at ih
    simp only [Memory.truncate, List.filter_cons]
    split
    · exact (Memory.wf_cons _ _).2 ⟨fun x hx => hc x (List.mem_of_mem_filter hx), ih⟩
    · exact ih

/-- The reset buffers have the canonical form. -/
theorem reset_memory_wf : State.reset.inMem.wf = true ∧ State.reset.outMem.wf = true := ⟨rfl, rfl⟩

/-- Equal contents are equal data: two canonical memories that list the same bytes are the same list. -/
theorem Memory.ext_of_find {m n : Memory} (hm : m.wf = true) (hn : n.wf = true) (h : ∀ i, m.find i = n.find i) :
    m = n := by
  have absent : ∀ {a : Nat} {l : Memory}, (∀ x ∈ l, a < x.1) → l.find a = none := by
    intro a l hl
    induction l with
    | nil => rfl
    | cons x l ih =>
      have h1 := hl x (by simp)
      rw [Memory.find_cons, if_neg (by omega)]
      exact ih fun y hy => hl y (by simp [hy])
  induction m generalizing n with
  | nil =>
    cases n with
    | nil => rfl
    | cons y n => have := h y.1; simp [Memory.find] at this
  | cons x m ih =>
    cases n with
    | nil => have := h x.1; simp [Memory.find] at this
    | cons y n =>
      obtain ⟨hx, hm⟩ := (Memory.wf_cons x m).1 hm
      obtain ⟨hy, hn⟩ := (Memory.wf_cons y n).1 hn
      have hxy : x.1 = y.1 := by
        rcases Nat.lt_trichotomy x.1 y.1 with hlt | he | hlt
        · have h1 := h x.1
          rw [Memory.find_cons, if_pos rfl, Memory.find_cons, if_neg (by omega),
            absent fun z hz => Nat.lt_trans hlt (hy z hz)] at h1
          exact absurd h1 (by simp)
        · exact he
        · have h1 := h y.1
          rw [Memory.find_cons, if_neg (by omega), Memory.find_cons, if_pos rfl,
            absent fun z hz => Nat.lt_trans hlt (hx z hz)] at h1
          exact absurd h1.symm (by simp)
      have hb : x.2 = y.2 := by
        have h1 := h x.1
        rw [Memory.find_cons, if_pos rfl, Memory.find_cons, if_pos hxy] at h1
        exact Option.some.inj h1
      have hrest : ∀ i, Memory.find m i = Memory.find n i := by
        intro i
        by_cases hi : i = x.1
        · rw [hi, absent hx, hxy, absent hy]
        · have h1 := h i
          rwa [Memory.find_cons, if_neg hi, Memory.find_cons, if_neg (hxy ▸ hi)] at h1
      rw [ih hm hn hrest, show x = y from Prod.ext hxy hb]

end Sys2Proof.Machine
end

