-- ==== Sys2Proof/Laws/State.lean ====
section
/-! SUPPORT. One lemma per field per named update of State, each true by unfolding, so that no later proof unfolds a
record update. -/

namespace Sys2Proof.Machine

variable (s : State)

/-! ### forgetOut -/

@[simp] theorem forgetOut_capacity : s.forgetOut.capacity = s.capacity := rfl
@[simp] theorem forgetOut_key : s.forgetOut.key = s.key := rfl
@[simp] theorem forgetOut_iv : s.forgetOut.iv = s.iv := rfl
@[simp] theorem forgetOut_cmd : s.forgetOut.cmd = s.cmd := rfl
@[simp] theorem forgetOut_status : s.forgetOut.status = s.status := rfl
@[simp] theorem forgetOut_irqEn : s.forgetOut.irqEn = s.irqEn := rfl
@[simp] theorem forgetOut_inLen : s.forgetOut.inLen = s.inLen := rfl
@[simp] theorem forgetOut_outLen : s.forgetOut.outLen = s.outLen := rfl
@[simp] theorem forgetOut_inMem : s.forgetOut.inMem = s.inMem := rfl
@[simp] theorem forgetOut_outMem : s.forgetOut.outMem = [] := rfl
@[simp] theorem forgetOut_kw : s.forgetOut.kw = s.kw := rfl
@[simp] theorem forgetOut_chain : s.forgetOut.chain = s.chain := rfl
@[simp] theorem forgetOut_v : s.forgetOut.v = s.v := rfl
@[simp] theorem forgetOut_sum : s.forgetOut.sum = s.sum := rfl
@[simp] theorem forgetOut_rnd : s.forgetOut.rnd = s.rnd := rfl
@[simp] theorem forgetOut_prev : s.forgetOut.prev = s.prev := rfl
@[simp] theorem forgetOut_opc : s.forgetOut.opc = s.opc := rfl
@[simp] theorem forgetOut_nlen : s.forgetOut.nlen = s.nlen := rfl
@[simp] theorem forgetOut_padn : s.forgetOut.padn = s.padn := rfl
@[simp] theorem forgetOut_nblk : s.forgetOut.nblk = s.nblk := rfl
@[simp] theorem forgetOut_blk : s.forgetOut.blk = s.blk := rfl
@[simp] theorem forgetOut_events : s.forgetOut.events = s.events := rfl
@[simp] theorem forgetOut_reply : s.forgetOut.reply = s.reply := rfl
@[simp] theorem forgetOut_drawn : s.forgetOut.drawn = s.drawn + 1 := rfl
@[simp] theorem forgetOut_inDraw : s.forgetOut.inDraw = s.inDraw := rfl
@[simp] theorem forgetOut_outDraw : s.forgetOut.outDraw = s.drawn := rfl

/-! ### forgetInternals -/

@[simp] theorem forgetInternals_capacity : s.forgetInternals.capacity = s.capacity := rfl
@[simp] theorem forgetInternals_key : s.forgetInternals.key = s.key := rfl
@[simp] theorem forgetInternals_iv : s.forgetInternals.iv = s.iv := rfl
@[simp] theorem forgetInternals_cmd : s.forgetInternals.cmd = s.cmd := rfl
@[simp] theorem forgetInternals_status : s.forgetInternals.status = s.status := rfl
@[simp] theorem forgetInternals_irqEn : s.forgetInternals.irqEn = s.irqEn := rfl
@[simp] theorem forgetInternals_inLen : s.forgetInternals.inLen = s.inLen := rfl
@[simp] theorem forgetInternals_outLen : s.forgetInternals.outLen = s.outLen := rfl
@[simp] theorem forgetInternals_inMem : s.forgetInternals.inMem = s.inMem := rfl
@[simp] theorem forgetInternals_outMem : s.forgetInternals.outMem = s.outMem := rfl
@[simp] theorem forgetInternals_events : s.forgetInternals.events = s.events := rfl
@[simp] theorem forgetInternals_reply : s.forgetInternals.reply = s.reply := rfl
@[simp] theorem forgetInternals_drawn : s.forgetInternals.drawn = s.drawn + 1 := rfl
@[simp] theorem forgetInternals_inDraw : s.forgetInternals.inDraw = s.inDraw := rfl
@[simp] theorem forgetInternals_outDraw : s.forgetInternals.outDraw = s.outDraw := rfl

/-! ### withUnspecInternals -/

@[simp] theorem withUnspecInternals_capacity (d : Nat) : (s.withUnspecInternals d).capacity = s.capacity := rfl
@[simp] theorem withUnspecInternals_key (d : Nat) : (s.withUnspecInternals d).key = s.key := rfl
@[simp] theorem withUnspecInternals_iv (d : Nat) : (s.withUnspecInternals d).iv = s.iv := rfl
@[simp] theorem withUnspecInternals_cmd (d : Nat) : (s.withUnspecInternals d).cmd = s.cmd := rfl
@[simp] theorem withUnspecInternals_status (d : Nat) : (s.withUnspecInternals d).status = s.status := rfl
@[simp] theorem withUnspecInternals_irqEn (d : Nat) : (s.withUnspecInternals d).irqEn = s.irqEn := rfl
@[simp] theorem withUnspecInternals_inLen (d : Nat) : (s.withUnspecInternals d).inLen = s.inLen := rfl
@[simp] theorem withUnspecInternals_outLen (d : Nat) : (s.withUnspecInternals d).outLen = s.outLen := rfl
@[simp] theorem withUnspecInternals_inMem (d : Nat) : (s.withUnspecInternals d).inMem = s.inMem := rfl
@[simp] theorem withUnspecInternals_outMem (d : Nat) : (s.withUnspecInternals d).outMem = s.outMem := rfl
@[simp] theorem withUnspecInternals_events (d : Nat) : (s.withUnspecInternals d).events = s.events := rfl
@[simp] theorem withUnspecInternals_reply (d : Nat) : (s.withUnspecInternals d).reply = s.reply := rfl
@[simp] theorem withUnspecInternals_drawn (d : Nat) : (s.withUnspecInternals d).drawn = s.drawn := rfl
@[simp] theorem withUnspecInternals_inDraw (d : Nat) : (s.withUnspecInternals d).inDraw = s.inDraw := rfl
@[simp] theorem withUnspecInternals_outDraw (d : Nat) : (s.withUnspecInternals d).outDraw = s.outDraw := rfl

/-! ### raiseError -/

@[simp] theorem raiseError_capacity (e : ErrorCause) : (raiseError e s).capacity = s.capacity := rfl
@[simp] theorem raiseError_key (e : ErrorCause) : (raiseError e s).key = s.key := rfl
@[simp] theorem raiseError_iv (e : ErrorCause) : (raiseError e s).iv = s.iv := rfl
@[simp] theorem raiseError_cmd (e : ErrorCause) : (raiseError e s).cmd = s.cmd := rfl
@[simp] theorem raiseError_status (e : ErrorCause) : (raiseError e s).status = ⟨.error, e, s.status.wdrop⟩ := rfl
@[simp] theorem raiseError_irqEn (e : ErrorCause) : (raiseError e s).irqEn = s.irqEn := rfl
@[simp] theorem raiseError_inLen (e : ErrorCause) : (raiseError e s).inLen = s.inLen := rfl
@[simp] theorem raiseError_outLen (e : ErrorCause) : (raiseError e s).outLen = 0 := rfl
@[simp] theorem raiseError_inMem (e : ErrorCause) : (raiseError e s).inMem = s.inMem := rfl
@[simp] theorem raiseError_outMem (e : ErrorCause) : (raiseError e s).outMem = [] := rfl
@[simp] theorem raiseError_events (e : ErrorCause) : (raiseError e s).events = s.events := rfl
@[simp] theorem raiseError_reply (e : ErrorCause) : (raiseError e s).reply = s.reply := rfl
@[simp] theorem raiseError_drawn (e : ErrorCause) : (raiseError e s).drawn = s.drawn + 2 := rfl
@[simp] theorem raiseError_inDraw (e : ErrorCause) : (raiseError e s).inDraw = s.inDraw := rfl
@[simp] theorem raiseError_outDraw (e : ErrorCause) : (raiseError e s).outDraw = s.drawn := rfl

/-! ### acknowledge -/

@[simp] theorem acknowledge_capacity : (acknowledge s).capacity = s.capacity := rfl
@[simp] theorem acknowledge_key : (acknowledge s).key = s.key := rfl
@[simp] theorem acknowledge_iv : (acknowledge s).iv = s.iv := rfl
@[simp] theorem acknowledge_cmd : (acknowledge s).cmd = s.cmd := rfl
@[simp] theorem acknowledge_status : (acknowledge s).status = ⟨.idle, .none, false⟩ := rfl
@[simp] theorem acknowledge_irqEn : (acknowledge s).irqEn = s.irqEn := rfl
@[simp] theorem acknowledge_inLen : (acknowledge s).inLen = s.inLen := rfl
@[simp] theorem acknowledge_outLen : (acknowledge s).outLen = s.outLen := rfl
@[simp] theorem acknowledge_inMem : (acknowledge s).inMem = s.inMem := rfl
@[simp] theorem acknowledge_outMem : (acknowledge s).outMem = s.outMem := rfl
@[simp] theorem acknowledge_kw : (acknowledge s).kw = s.kw := rfl
@[simp] theorem acknowledge_chain : (acknowledge s).chain = s.chain := rfl
@[simp] theorem acknowledge_v : (acknowledge s).v = s.v := rfl
@[simp] theorem acknowledge_sum : (acknowledge s).sum = s.sum := rfl
@[simp] theorem acknowledge_rnd : (acknowledge s).rnd = s.rnd := rfl
@[simp] theorem acknowledge_prev : (acknowledge s).prev = s.prev := rfl
@[simp] theorem acknowledge_opc : (acknowledge s).opc = s.opc := rfl
@[simp] theorem acknowledge_nlen : (acknowledge s).nlen = s.nlen := rfl
@[simp] theorem acknowledge_padn : (acknowledge s).padn = s.padn := rfl
@[simp] theorem acknowledge_nblk : (acknowledge s).nblk = s.nblk := rfl
@[simp] theorem acknowledge_blk : (acknowledge s).blk = s.blk := rfl
@[simp] theorem acknowledge_events : (acknowledge s).events = s.events := rfl
@[simp] theorem acknowledge_reply : (acknowledge s).reply = s.reply := rfl
@[simp] theorem acknowledge_drawn : (acknowledge s).drawn = s.drawn := rfl
@[simp] theorem acknowledge_inDraw : (acknowledge s).inDraw = s.inDraw := rfl
@[simp] theorem acknowledge_outDraw : (acknowledge s).outDraw = s.outDraw := rfl

/-! ### dropWrite -/

@[simp] theorem dropWrite_capacity : (dropWrite s).capacity = s.capacity := rfl
@[simp] theorem dropWrite_key : (dropWrite s).key = s.key := rfl
@[simp] theorem dropWrite_iv : (dropWrite s).iv = s.iv := rfl
@[simp] theorem dropWrite_cmd : (dropWrite s).cmd = s.cmd := rfl
@[simp] theorem dropWrite_status : (dropWrite s).status = ⟨s.status.state, s.status.err, true⟩ := rfl
@[simp] theorem dropWrite_irqEn : (dropWrite s).irqEn = s.irqEn := rfl
@[simp] theorem dropWrite_inLen : (dropWrite s).inLen = s.inLen := rfl
@[simp] theorem dropWrite_outLen : (dropWrite s).outLen = s.outLen := rfl
@[simp] theorem dropWrite_inMem : (dropWrite s).inMem = s.inMem := rfl
@[simp] theorem dropWrite_outMem : (dropWrite s).outMem = s.outMem := rfl
@[simp] theorem dropWrite_kw : (dropWrite s).kw = s.kw := rfl
@[simp] theorem dropWrite_chain : (dropWrite s).chain = s.chain := rfl
@[simp] theorem dropWrite_v : (dropWrite s).v = s.v := rfl
@[simp] theorem dropWrite_sum : (dropWrite s).sum = s.sum := rfl
@[simp] theorem dropWrite_rnd : (dropWrite s).rnd = s.rnd := rfl
@[simp] theorem dropWrite_prev : (dropWrite s).prev = s.prev := rfl
@[simp] theorem dropWrite_opc : (dropWrite s).opc = s.opc := rfl
@[simp] theorem dropWrite_nlen : (dropWrite s).nlen = s.nlen := rfl
@[simp] theorem dropWrite_padn : (dropWrite s).padn = s.padn := rfl
@[simp] theorem dropWrite_nblk : (dropWrite s).nblk = s.nblk := rfl
@[simp] theorem dropWrite_blk : (dropWrite s).blk = s.blk := rfl
@[simp] theorem dropWrite_events : (dropWrite s).events = s.events := rfl
@[simp] theorem dropWrite_reply : (dropWrite s).reply = s.reply := rfl
@[simp] theorem dropWrite_drawn : (dropWrite s).drawn = s.drawn := rfl
@[simp] theorem dropWrite_inDraw : (dropWrite s).inDraw = s.inDraw := rfl
@[simp] theorem dropWrite_outDraw : (dropWrite s).outDraw = s.outDraw := rfl

/-! ### finishDone -/

@[simp] theorem finishDone_capacity (n : Nat) : (finishDone n s).capacity = s.capacity := rfl
@[simp] theorem finishDone_key (n : Nat) : (finishDone n s).key = s.key := rfl
@[simp] theorem finishDone_iv (n : Nat) : (finishDone n s).iv = s.iv := rfl
@[simp] theorem finishDone_cmd (n : Nat) : (finishDone n s).cmd = s.cmd := rfl
@[simp] theorem finishDone_status (n : Nat) : (finishDone n s).status = ⟨.done, .none, s.status.wdrop⟩ := rfl
@[simp] theorem finishDone_irqEn (n : Nat) : (finishDone n s).irqEn = s.irqEn := rfl
@[simp] theorem finishDone_inLen (n : Nat) : (finishDone n s).inLen = s.inLen := rfl
@[simp] theorem finishDone_outLen (n : Nat) : (finishDone n s).outLen = BitVec.ofNat 32 n := rfl
@[simp] theorem finishDone_inMem (n : Nat) : (finishDone n s).inMem = s.inMem := rfl
@[simp] theorem finishDone_outMem (n : Nat) : (finishDone n s).outMem = s.outMem.truncate n := rfl
@[simp] theorem finishDone_events (n : Nat) : (finishDone n s).events = s.events := rfl
@[simp] theorem finishDone_reply (n : Nat) : (finishDone n s).reply = s.reply := rfl
@[simp] theorem finishDone_drawn (n : Nat) : (finishDone n s).drawn = s.drawn + 1 := rfl
@[simp] theorem finishDone_inDraw (n : Nat) : (finishDone n s).inDraw = s.inDraw := rfl
@[simp] theorem finishDone_outDraw (n : Nat) : (finishDone n s).outDraw = s.outDraw := rfl

/-! ### withRounds -/

@[simp] theorem withRounds_capacity (r : Rounds) : (s.withRounds r).capacity = s.capacity := rfl
@[simp] theorem withRounds_key (r : Rounds) : (s.withRounds r).key = s.key := rfl
@[simp] theorem withRounds_iv (r : Rounds) : (s.withRounds r).iv = s.iv := rfl
@[simp] theorem withRounds_cmd (r : Rounds) : (s.withRounds r).cmd = s.cmd := rfl
@[simp] theorem withRounds_status (r : Rounds) : (s.withRounds r).status = s.status := rfl
@[simp] theorem withRounds_irqEn (r : Rounds) : (s.withRounds r).irqEn = s.irqEn := rfl
@[simp] theorem withRounds_inLen (r : Rounds) : (s.withRounds r).inLen = s.inLen := rfl
@[simp] theorem withRounds_outLen (r : Rounds) : (s.withRounds r).outLen = s.outLen := rfl
@[simp] theorem withRounds_inMem (r : Rounds) : (s.withRounds r).inMem = s.inMem := rfl
@[simp] theorem withRounds_outMem (r : Rounds) : (s.withRounds r).outMem = s.outMem := rfl
@[simp] theorem withRounds_kw (r : Rounds) : (s.withRounds r).kw = s.kw := rfl
@[simp] theorem withRounds_chain (r : Rounds) : (s.withRounds r).chain = s.chain := rfl
@[simp] theorem withRounds_v (r : Rounds) : (s.withRounds r).v = ⟨r.y, r.z⟩ := rfl
@[simp] theorem withRounds_sum (r : Rounds) : (s.withRounds r).sum = r.sum := rfl
@[simp] theorem withRounds_rnd (r : Rounds) : (s.withRounds r).rnd = r.rnd := rfl
@[simp] theorem withRounds_prev (r : Rounds) : (s.withRounds r).prev = s.prev := rfl
@[simp] theorem withRounds_opc (r : Rounds) : (s.withRounds r).opc = s.opc := rfl
@[simp] theorem withRounds_nlen (r : Rounds) : (s.withRounds r).nlen = s.nlen := rfl
@[simp] theorem withRounds_padn (r : Rounds) : (s.withRounds r).padn = s.padn := rfl
@[simp] theorem withRounds_nblk (r : Rounds) : (s.withRounds r).nblk = s.nblk := rfl
@[simp] theorem withRounds_blk (r : Rounds) : (s.withRounds r).blk = s.blk := rfl
@[simp] theorem withRounds_events (r : Rounds) : (s.withRounds r).events = s.events := rfl
@[simp] theorem withRounds_reply (r : Rounds) : (s.withRounds r).reply = s.reply := rfl
@[simp] theorem withRounds_drawn (r : Rounds) : (s.withRounds r).drawn = s.drawn := rfl
@[simp] theorem withRounds_inDraw (r : Rounds) : (s.withRounds r).inDraw = s.inDraw := rfl
@[simp] theorem withRounds_outDraw (r : Rounds) : (s.withRounds r).outDraw = s.outDraw := rfl

/-! ### beginCommand -/

@[simp] theorem beginCommand_capacity (c : Byte) : (beginCommand c s).capacity = s.capacity := rfl
@[simp] theorem beginCommand_key (c : Byte) : (beginCommand c s).key = s.key := rfl
@[simp] theorem beginCommand_iv (c : Byte) : (beginCommand c s).iv = s.iv := rfl
@[simp] theorem beginCommand_cmd (c : Byte) : (beginCommand c s).cmd = c := rfl
@[simp] theorem beginCommand_status (c : Byte) : (beginCommand c s).status = ⟨.idle, .none, false⟩ := rfl
@[simp] theorem beginCommand_irqEn (c : Byte) : (beginCommand c s).irqEn = s.irqEn := rfl
@[simp] theorem beginCommand_inLen (c : Byte) : (beginCommand c s).inLen = s.inLen := rfl
@[simp] theorem beginCommand_outLen (c : Byte) : (beginCommand c s).outLen = 0 := rfl
@[simp] theorem beginCommand_inMem (c : Byte) : (beginCommand c s).inMem = s.inMem := rfl
@[simp] theorem beginCommand_outMem (c : Byte) : (beginCommand c s).outMem = [] := rfl
@[simp] theorem beginCommand_kw (c : Byte) : (beginCommand c s).kw = s.kw := rfl
@[simp] theorem beginCommand_chain (c : Byte) : (beginCommand c s).chain = s.chain := rfl
@[simp] theorem beginCommand_v (c : Byte) : (beginCommand c s).v = s.v := rfl
@[simp] theorem beginCommand_sum (c : Byte) : (beginCommand c s).sum = s.sum := rfl
@[simp] theorem beginCommand_rnd (c : Byte) : (beginCommand c s).rnd = s.rnd := rfl
@[simp] theorem beginCommand_prev (c : Byte) : (beginCommand c s).prev = s.prev := rfl
@[simp] theorem beginCommand_opc (c : Byte) : (beginCommand c s).opc = c := rfl
@[simp] theorem beginCommand_nlen (c : Byte) : (beginCommand c s).nlen = s.nlen := rfl
@[simp] theorem beginCommand_padn (c : Byte) : (beginCommand c s).padn = s.padn := rfl
@[simp] theorem beginCommand_nblk (c : Byte) : (beginCommand c s).nblk = s.nblk := rfl
@[simp] theorem beginCommand_blk (c : Byte) : (beginCommand c s).blk = s.blk := rfl
@[simp] theorem beginCommand_events (c : Byte) : (beginCommand c s).events = s.events := rfl
@[simp] theorem beginCommand_reply (c : Byte) : (beginCommand c s).reply = s.reply := rfl
@[simp] theorem beginCommand_drawn (c : Byte) : (beginCommand c s).drawn = s.drawn + 1 := rfl
@[simp] theorem beginCommand_inDraw (c : Byte) : (beginCommand c s).inDraw = s.inDraw := rfl
@[simp] theorem beginCommand_outDraw (c : Byte) : (beginCommand c s).outDraw = s.drawn := rfl

/-! ### answer -/

@[simp] theorem answer_capacity (r : Reply) : (s.answer r).capacity = s.capacity := rfl
@[simp] theorem answer_key (r : Reply) : (s.answer r).key = s.key := rfl
@[simp] theorem answer_iv (r : Reply) : (s.answer r).iv = s.iv := rfl
@[simp] theorem answer_cmd (r : Reply) : (s.answer r).cmd = s.cmd := rfl
@[simp] theorem answer_status (r : Reply) : (s.answer r).status = s.status := rfl
@[simp] theorem answer_irqEn (r : Reply) : (s.answer r).irqEn = s.irqEn := rfl
@[simp] theorem answer_inLen (r : Reply) : (s.answer r).inLen = s.inLen := rfl
@[simp] theorem answer_outLen (r : Reply) : (s.answer r).outLen = s.outLen := rfl
@[simp] theorem answer_inMem (r : Reply) : (s.answer r).inMem = s.inMem := rfl
@[simp] theorem answer_outMem (r : Reply) : (s.answer r).outMem = s.outMem := rfl
@[simp] theorem answer_kw (r : Reply) : (s.answer r).kw = s.kw := rfl
@[simp] theorem answer_chain (r : Reply) : (s.answer r).chain = s.chain := rfl
@[simp] theorem answer_v (r : Reply) : (s.answer r).v = s.v := rfl
@[simp] theorem answer_sum (r : Reply) : (s.answer r).sum = s.sum := rfl
@[simp] theorem answer_rnd (r : Reply) : (s.answer r).rnd = s.rnd := rfl
@[simp] theorem answer_prev (r : Reply) : (s.answer r).prev = s.prev := rfl
@[simp] theorem answer_opc (r : Reply) : (s.answer r).opc = s.opc := rfl
@[simp] theorem answer_nlen (r : Reply) : (s.answer r).nlen = s.nlen := rfl
@[simp] theorem answer_padn (r : Reply) : (s.answer r).padn = s.padn := rfl
@[simp] theorem answer_nblk (r : Reply) : (s.answer r).nblk = s.nblk := rfl
@[simp] theorem answer_blk (r : Reply) : (s.answer r).blk = s.blk := rfl
@[simp] theorem answer_events (r : Reply) : (s.answer r).events = s.events := rfl
@[simp] theorem answer_reply (r : Reply) : (s.answer r).reply = some r := rfl
@[simp] theorem answer_drawn (r : Reply) : (s.answer r).drawn = s.drawn := rfl
@[simp] theorem answer_inDraw (r : Reply) : (s.answer r).inDraw = s.inDraw := rfl
@[simp] theorem answer_outDraw (r : Reply) : (s.answer r).outDraw = s.outDraw := rfl

/-! ### answerUnspec -/

@[simp] theorem answerUnspec_capacity : (answerUnspec s).capacity = s.capacity := rfl
@[simp] theorem answerUnspec_key : (answerUnspec s).key = s.key := rfl
@[simp] theorem answerUnspec_iv : (answerUnspec s).iv = s.iv := rfl
@[simp] theorem answerUnspec_cmd : (answerUnspec s).cmd = s.cmd := rfl
@[simp] theorem answerUnspec_status : (answerUnspec s).status = s.status := rfl
@[simp] theorem answerUnspec_irqEn : (answerUnspec s).irqEn = s.irqEn := rfl
@[simp] theorem answerUnspec_inLen : (answerUnspec s).inLen = s.inLen := rfl
@[simp] theorem answerUnspec_outLen : (answerUnspec s).outLen = s.outLen := rfl
@[simp] theorem answerUnspec_inMem : (answerUnspec s).inMem = s.inMem := rfl
@[simp] theorem answerUnspec_outMem : (answerUnspec s).outMem = s.outMem := rfl
@[simp] theorem answerUnspec_kw : (answerUnspec s).kw = s.kw := rfl
@[simp] theorem answerUnspec_chain : (answerUnspec s).chain = s.chain := rfl
@[simp] theorem answerUnspec_v : (answerUnspec s).v = s.v := rfl
@[simp] theorem answerUnspec_sum : (answerUnspec s).sum = s.sum := rfl
@[simp] theorem answerUnspec_rnd : (answerUnspec s).rnd = s.rnd := rfl
@[simp] theorem answerUnspec_prev : (answerUnspec s).prev = s.prev := rfl
@[simp] theorem answerUnspec_opc : (answerUnspec s).opc = s.opc := rfl
@[simp] theorem answerUnspec_nlen : (answerUnspec s).nlen = s.nlen := rfl
@[simp] theorem answerUnspec_padn : (answerUnspec s).padn = s.padn := rfl
@[simp] theorem answerUnspec_nblk : (answerUnspec s).nblk = s.nblk := rfl
@[simp] theorem answerUnspec_blk : (answerUnspec s).blk = s.blk := rfl
@[simp] theorem answerUnspec_events : (answerUnspec s).events = s.events := rfl
@[simp] theorem answerUnspec_reply : (answerUnspec s).reply = some (.data (Config.unspecByte s.drawn 0)) := rfl
@[simp] theorem answerUnspec_drawn : (answerUnspec s).drawn = s.drawn + 1 := rfl
@[simp] theorem answerUnspec_inDraw : (answerUnspec s).inDraw = s.inDraw := rfl
@[simp] theorem answerUnspec_outDraw : (answerUnspec s).outDraw = s.outDraw := rfl

/-! ### afterReset -/

@[simp] theorem afterReset_capacity (c : Capacity) (d : Nat) (ev : List Event) :
    (State.afterReset c d ev).capacity = c := rfl
@[simp] theorem afterReset_key (c : Capacity) (d : Nat) (ev : List Event) :
    (State.afterReset c d ev).key = Vector.replicate 16 0 := rfl
@[simp] theorem afterReset_iv (c : Capacity) (d : Nat) (ev : List Event) :
    (State.afterReset c d ev).iv = Vector.replicate 8 0 := rfl
@[simp] theorem afterReset_cmd (c : Capacity) (d : Nat) (ev : List Event) :
    (State.afterReset c d ev).cmd = 0 := rfl
@[simp] theorem afterReset_status (c : Capacity) (d : Nat) (ev : List Event) :
    (State.afterReset c d ev).status = ⟨.idle, .none, false⟩ := rfl
@[simp] theorem afterReset_irqEn (c : Capacity) (d : Nat) (ev : List Event) :
    (State.afterReset c d ev).irqEn = 0 := rfl
@[simp] theorem afterReset_inLen (c : Capacity) (d : Nat) (ev : List Event) :
    (State.afterReset c d ev).inLen = 0 := rfl
@[simp] theorem afterReset_outLen (c : Capacity) (d : Nat) (ev : List Event) :
    (State.afterReset c d ev).outLen = 0 := rfl
@[simp] theorem afterReset_inMem (c : Capacity) (d : Nat) (ev : List Event) :
    (State.afterReset c d ev).inMem = [] := rfl
@[simp] theorem afterReset_outMem (c : Capacity) (d : Nat) (ev : List Event) :
    (State.afterReset c d ev).outMem = [] := rfl
@[simp] theorem afterReset_events (c : Capacity) (d : Nat) (ev : List Event) :
    (State.afterReset c d ev).events = ev := rfl
@[simp] theorem afterReset_reply (c : Capacity) (d : Nat) (ev : List Event) :
    (State.afterReset c d ev).reply = none := rfl
@[simp] theorem afterReset_drawn (c : Capacity) (d : Nat) (ev : List Event) :
    (State.afterReset c d ev).drawn = d + 3 := rfl
@[simp] theorem afterReset_inDraw (c : Capacity) (d : Nat) (ev : List Event) :
    (State.afterReset c d ev).inDraw = d := rfl
@[simp] theorem afterReset_outDraw (c : Capacity) (d : Nat) (ev : List Event) :
    (State.afterReset c d ev).outDraw = d + 1 := rfl

theorem resetMachine_eq : resetMachine s = State.afterReset s.capacity s.drawn s.events := rfl

/-! ### The ranges of the UNSPEC internal registers (10_state.md R27) -/

theorem withUnspecInternals_rnd_le (d : Nat) : (s.withUnspecInternals d).rnd ≤ 32 := by
  have := Nat.mod_lt (Config.unspecNat d 0) (show 33 > 0 by omega)
  show Config.unspecNat d 0 % 33 ≤ 32
  omega

theorem withUnspecInternals_nlen_le (d : Nat) : (s.withUnspecInternals d).nlen ≤ s.msgCap :=
  Nat.lt_succ_iff.1 (Nat.mod_lt _ (Nat.succ_pos _))

theorem withUnspecInternals_padn_le (d : Nat) : (s.withUnspecInternals d).padn ≤ 8 := by
  have := Nat.mod_lt (Config.unspecNat d 2) (show 9 > 0 by omega)
  show Config.unspecNat d 2 % 9 ≤ 8
  omega

theorem withUnspecInternals_blk_le (d : Nat) : (s.withUnspecInternals d).blk ≤ (s.withUnspecInternals d).nblk :=
  Nat.lt_succ_iff.1 (Nat.mod_lt _ (Nat.succ_pos _))

theorem withUnspecInternals_nblk_le (d : Nat) : (s.withUnspecInternals d).nblk ≤ s.msgCap / 8 + 1 :=
  Nat.lt_succ_iff.1 (Nat.mod_lt _ (Nat.succ_pos _))

theorem raiseError_ranges (e : ErrorCause) :
    (raiseError e s).rnd ≤ 32 ∧ (raiseError e s).nlen ≤ s.msgCap ∧ (raiseError e s).padn ≤ 8 ∧
      (raiseError e s).blk ≤ (raiseError e s).nblk ∧ (raiseError e s).nblk ≤ s.msgCap / 8 + 1 :=
  ⟨withUnspecInternals_rnd_le s.forgetOut _, withUnspecInternals_nlen_le s.forgetOut _,
    withUnspecInternals_padn_le s.forgetOut _, withUnspecInternals_blk_le s.forgetOut _,
    withUnspecInternals_nblk_le s.forgetOut _⟩

theorem finishDone_ranges (n : Nat) :
    (finishDone n s).rnd ≤ 32 ∧ (finishDone n s).nlen ≤ s.msgCap ∧ (finishDone n s).padn ≤ 8 ∧
      (finishDone n s).blk ≤ (finishDone n s).nblk ∧ (finishDone n s).nblk ≤ s.msgCap / 8 + 1 :=
  ⟨withUnspecInternals_rnd_le s _, withUnspecInternals_nlen_le s _, withUnspecInternals_padn_le s _,
    withUnspecInternals_blk_le s _, withUnspecInternals_nblk_le s _⟩

end Sys2Proof.Machine
end

