-- ==== Sys2Proof/Laws/Codec.lean ====
section
/-! SUPPORT. The laws of the word codec (40_word_codec.md): bytes and words are inverse to each other, the codec's
bounds, and what a block load and a block store do. -/

namespace Sys2Proof.Machine

/-! ### Bytes and words -/

@[simp] theorem byteOfWord_wordOfBytes_zero (b0 b1 b2 b3 : Byte) : byteOfWord (wordOfBytes b0 b1 b2 b3) 0 = b0 := by
  ext i hi
  simp [byteOfWord, wordOfBytes]
  interval_cases i <;> simp

@[simp] theorem byteOfWord_wordOfBytes_one (b0 b1 b2 b3 : Byte) : byteOfWord (wordOfBytes b0 b1 b2 b3) 1 = b1 := by
  ext i hi
  simp [byteOfWord, wordOfBytes]
  interval_cases i <;> simp

@[simp] theorem byteOfWord_wordOfBytes_two (b0 b1 b2 b3 : Byte) : byteOfWord (wordOfBytes b0 b1 b2 b3) 2 = b2 := by
  ext i hi
  simp [byteOfWord, wordOfBytes]
  interval_cases i <;> simp

@[simp] theorem byteOfWord_wordOfBytes_three (b0 b1 b2 b3 : Byte) : byteOfWord (wordOfBytes b0 b1 b2 b3) 3 = b3 := by
  ext i hi
  simp [byteOfWord, wordOfBytes]

@[simp] theorem wordOfBytes_byteOfWord (w : Word) :
    wordOfBytes (byteOfWord w 0) (byteOfWord w 1) (byteOfWord w 2) (byteOfWord w 3) = w := by
  ext i hi
  simp [byteOfWord, wordOfBytes]
  interval_cases i <;> simp

@[simp] theorem byteOfBlock_blockOfBytes (b : Nat → Byte) {j : Nat} (hj : j < 8) :
    byteOfBlock (blockOfBytes b) j = b j := by
  interval_cases j <;> simp [byteOfBlock, blockOfBytes]

@[simp] theorem blockOfBytes_byteOfBlock (v : Block) : blockOfBytes (byteOfBlock v) = v := by
  simp [blockOfBytes, byteOfBlock]

theorem blockOfBytes_congr {b c : Nat → Byte} (h : ∀ j, j < 8 → b j = c j) : blockOfBytes b = blockOfBytes c := by
  simp [blockOfBytes, h]

/-! ### The codec's bounds -/

theorem bytesToWords_of_le {len : Nat} (buf : Nat → Byte) {off cnt : Nat} (h : off + 4 * cnt ≤ len) :
    bytesToWords len buf off cnt = some ((List.range cnt).map fun i =>
      wordOfBytes (buf (off + 4 * i)) (buf (off + 4 * i + 1)) (buf (off + 4 * i + 2)) (buf (off + 4 * i + 3))) :=
  if_pos h

theorem bytesToWords_of_lt {len : Nat} (buf : Nat → Byte) {off cnt : Nat} (h : len < off + 4 * cnt) :
    bytesToWords len buf off cnt = none :=
  if_neg (by omega)

theorem blockAt_of_le {len : Nat} (buf : Nat → Byte) {off : Nat} (h : off + 8 ≤ len) :
    blockAt len buf off = some (blockOfBytes fun j => buf (off + j)) := by
  rw [blockAt, bytesToWords_of_le buf (by omega)]
  rfl

theorem keyWordsOf_eq (s : State) : keyWordsOf s = some #v[
    wordOfBytes (s.keyByte 0) (s.keyByte 1) (s.keyByte 2) (s.keyByte 3),
    wordOfBytes (s.keyByte 4) (s.keyByte 5) (s.keyByte 6) (s.keyByte 7),
    wordOfBytes (s.keyByte 8) (s.keyByte 9) (s.keyByte 10) (s.keyByte 11),
    wordOfBytes (s.keyByte 12) (s.keyByte 13) (s.keyByte 14) (s.keyByte 15)] := rfl

theorem ivBlockOf_eq (s : State) : ivBlockOf s = some (blockOfBytes s.ivByte) := rfl

/-! ### Storing words -/

theorem find_storeWord (m : Memory) (off : Nat) (w : Word) (a : Nat) :
    (storeWord m off w).find a =
      if off ≤ a ∧ a < off + 4 then some (byteOfWord w (a - off)) else m.find a := by
  simp only [storeWord, Memory.find_store]
  by_cases h0 : a = off
  · subst h0; simp
  by_cases h1 : a = off + 1
  · subst h1; simp
  by_cases h2 : a = off + 2
  · subst h2; simp
  by_cases h3 : a = off + 3
  · subst h3; simp
  rw [if_neg h3, if_neg h2, if_neg h1, if_neg h0, if_neg (by omega)]

theorem find_storeWords (ws : List Word) : ∀ (m : Memory) (off a : Nat),
    (storeWords m off ws).find a =
      if off ≤ a ∧ a < off + 4 * ws.length then some (byteOfWord (ws.getD ((a - off) / 4) 0) ((a - off) % 4))
      else m.find a := by
  induction ws with
  | nil =>
    intro m off a
    rw [if_neg (by simp)]
    rfl
  | cons w ws ih =>
    intro m off a
    rw [storeWords, ih, List.length_cons]
    by_cases h : off + 4 ≤ a ∧ a < off + 4 + 4 * ws.length
    · rw [if_pos h, if_pos (by omega)]
      have h1 : (a - off) / 4 = (a - (off + 4)) / 4 + 1 := by omega
      have h2 : (a - (off + 4)) % 4 = (a - off) % 4 := by omega
      rw [h1, h2, List.getD_cons_succ]
    · rw [if_neg h, find_storeWord]
      by_cases h' : off ≤ a ∧ a < off + 4
      · rw [if_pos h', if_pos (by omega)]
        have h1 : (a - off) / 4 = 0 := by omega
        have h2 : (a - off) % 4 = a - off := by omega
        rw [h1, h2, List.getD_cons_zero]
      · rw [if_neg h', if_neg (by omega)]

/-- The two words of a block stored at `off`: exactly the eight bytes from `off` on change. -/
theorem find_storeWords_block (m : Memory) (v : Block) (off a : Nat) :
    (storeWords m off [v.v0, v.v1]).find a =
      if off ≤ a ∧ a < off + 8 then some (byteOfBlock v (a - off)) else m.find a := by
  simp only [storeWords, find_storeWord]
  by_cases h1 : off + 4 ≤ a ∧ a < off + 4 + 4
  · rw [if_pos h1, if_pos (by omega), byteOfBlock, if_neg (by omega), Nat.sub_sub]
  · rw [if_neg h1]
    by_cases h0 : off ≤ a ∧ a < off + 4
    · rw [if_pos h0, if_pos (by omega), byteOfBlock, if_pos (by omega)]
    · rw [if_neg h0, if_neg (by omega)]

theorem wf_storeWord {m : Memory} (h : m.wf = true) (off : Nat) (w : Word) : (storeWord m off w).wf = true := by
  simp only [storeWord]
  exact Memory.wf_store (Memory.wf_store (Memory.wf_store (Memory.wf_store h _ _) _ _) _ _) _ _

/-- A store of words keeps the canonical form. -/
theorem wf_storeWords (ws : List Word) : ∀ {m : Memory}, m.wf = true → ∀ off, (storeWords m off ws).wf = true := by
  induction ws with
  | nil => exact fun h _ => h
  | cons w ws ih => exact fun h off => ih (wf_storeWord h off w) _

/-! ### Loads and stores of the engine -/

theorem loadChunk_eq (s : State) : loadChunk s = some { s with v := chunkBlock s s.blk } := by
  rw [loadChunk, blockAt_of_le _ (by omega)]
  simp [chunkBlock]

theorem loadIn_eq {s : State} {off : Nat} (h : off + 8 ≤ s.msgCap) :
    loadIn off s = some { s with v := blockOfBytes fun j => s.inByte (off + j) } := by
  rw [loadIn, blockAt_of_le _ h]
  rfl

theorem storeOut_eq {s : State} {off : Nat} (h : off + 8 ≤ s.outCap) :
    storeOut off s = some { s with outMem := storeWords s.outMem off [s.v.v0, s.v.v1] } := by
  have h' : off + 4 * [s.v.v0, s.v.v1].length ≤ s.outCap := h
  rw [storeOut, wordsToBytes, if_pos h']
  rfl

end Sys2Proof.Machine
end

