-- ==== Sys2Proof/Laws/Feistel.lean ====
section
/-! SUPPORT. The laws of the Feistel engine (41_feistel.md): each round of decipher undoes the matching round of encipher,
and the running sum does not depend on the data. -/

namespace Sys2Proof.Machine

theorem iterateRounds_succ (f : Rounds → Rounds) (n : Nat) (r : Rounds) :
    iterateRounds f (n + 1) r = f (iterateRounds f n r) := by
  induction n generalizing r with
  | zero => rfl
  | succ n ih => rw [iterateRounds, ih, ← iterateRounds]

/-! ### One round -/

/-- A round of decipher undoes a round of encipher on `y`, `z` and SUM (R96). -/
theorem decipherRound_encipherRound (kw : KeyWords) (r : Rounds) (n : Nat) :
    decipherRound kw { encipherRound kw r with rnd := n } = { r with rnd := n + 1 } := by
  simp [decipherRound, encipherRound]

/-- A round of encipher undoes a round of decipher on `y`, `z` and SUM (R96). -/
theorem encipherRound_decipherRound (kw : KeyWords) (r : Rounds) (n : Nat) :
    encipherRound kw { decipherRound kw r with rnd := n } = { r with rnd := n + 1 } := by
  simp [decipherRound, encipherRound]

/-! ### Many rounds -/

/-- `n` rounds of decipher undo `n` rounds of encipher. -/
theorem iterate_decipher_encipher (kw : KeyWords) (n k : Nat) (r : Rounds) :
    iterateRounds (decipherRound kw) n { iterateRounds (encipherRound kw) n r with rnd := k } =
      { r with rnd := k + n } := by
  induction n generalizing k with
  | zero => rfl
  | succ n ih =>
    rw [iterateRounds, iterateRounds_succ, decipherRound_encipherRound, ih, Nat.add_right_comm, Nat.add_assoc]

/-- `n` rounds of encipher undo `n` rounds of decipher. -/
theorem iterate_encipher_decipher (kw : KeyWords) (n k : Nat) (r : Rounds) :
    iterateRounds (encipherRound kw) n { iterateRounds (decipherRound kw) n r with rnd := k } =
      { r with rnd := k + n } := by
  induction n generalizing k with
  | zero => rfl
  | succ n ih =>
    rw [iterateRounds, iterateRounds_succ, encipherRound_decipherRound, ih, Nat.add_right_comm, Nat.add_assoc]

theorem encipherRounds_succ (kw : KeyWords) (v : Block) (n : Nat) :
    encipherRounds kw v (n + 1) = encipherRound kw (encipherRounds kw v n) := iterateRounds_succ _ _ _

theorem decipherRounds_succ (kw : KeyWords) (v : Block) (n : Nat) :
    decipherRounds kw v (n + 1) = decipherRound kw (decipherRounds kw v n) := iterateRounds_succ _ _ _

/-- SUM after `n` rounds of encipher is `n * DELTA` (R95). -/
theorem encipherRounds_sum (kw : KeyWords) (v : Block) (n : Nat) :
    (encipherRounds kw v n).sum = BitVec.ofNat 32 n * delta := by
  induction n with
  | zero => simp [encipherRounds, iterateRounds]
  | succ n ih =>
    rw [encipherRounds_succ, encipherRound, ih, BitVec.ofNat_add, BitVec.add_mul]
    simp

/-- SUM after `n` rounds of decipher is LIMIT minus `n * DELTA` (R95). -/
theorem decipherRounds_sum (kw : KeyWords) (v : Block) (n : Nat) :
    (decipherRounds kw v n).sum = limit - BitVec.ofNat 32 n * delta := by
  induction n with
  | zero => simp [decipherRounds, iterateRounds]
  | succ n ih =>
    rw [decipherRounds_succ, decipherRound, ih, BitVec.ofNat_add, BitVec.add_mul, BitVec.one_mul]
    exact sub_sub _ _ _

@[simp] theorem encipherRounds_rnd (kw : KeyWords) (v : Block) (n : Nat) : (encipherRounds kw v n).rnd = n := by
  induction n with
  | zero => rfl
  | succ n ih => rw [encipherRounds_succ, encipherRound, ih]

@[simp] theorem decipherRounds_rnd (kw : KeyWords) (v : Block) (n : Nat) : (decipherRounds kw v n).rnd = n := by
  induction n with
  | zero => rfl
  | succ n ih => rw [decipherRounds_succ, decipherRound, ih]

/-! ### The engine in place -/

/-- SUM at the end of a call of encipher (R95). -/
theorem encipherRounds_rounds_sum (kw : KeyWords) (v : Block) : (encipherRounds kw v rounds).sum = 0xC6EF3720#32 := by
  rw [encipherRounds_sum]; decide

/-- SUM at the end of a call of decipher (R95). -/
theorem decipherRounds_rounds_sum (kw : KeyWords) (v : Block) : (decipherRounds kw v rounds).sum = 0x00000000#32 := by
  rw [decipherRounds_sum]; decide

theorem encipherV_v (s : State) : (encipherV s).v = encipherBlock s.kw s.v := rfl

theorem decipherV_v (s : State) : (decipherV s).v = decipherBlock s.kw s.v := rfl

theorem encipherV_eq (s : State) : encipherV s =
    { s with v := encipherBlock s.kw s.v, sum := 0xC6EF3720#32, rnd := 32 } := by
  rw [← encipherRounds_rounds_sum s.kw s.v]
  simp [encipherV, State.withRounds, encipherBlock, rounds]

theorem decipherV_eq (s : State) : decipherV s =
    { s with v := decipherBlock s.kw s.v, sum := 0x00000000#32, rnd := 32 } := by
  rw [← decipherRounds_rounds_sum s.kw s.v]
  simp [decipherV, State.withRounds, decipherBlock, rounds]

theorem Block.xor_xor_cancel (a b : Block) : (a.xor b).xor b = a := by
  simp [Block.xor]

end Sys2Proof.Machine
end

