-- ==== Sys2Proof/Laws/Driver.lean ====
section
/-! SUPPORT. The laws of the block driver (43_block_driver.md): what acceptance does, case by case, and what the complete
step of an accepted command leaves. -/

namespace Sys2Proof.Machine

/-! ### Results -/

@[simp] theorem andThen_next (s : State) (f : State → Result) : andThen (.next s) f = f s := rfl

theorem andThen_eq_next {r : Result} {f : State → Result} {t : State} :
    andThen r f = .next t ↔ ∃ s, r = .next s ∧ f s = .next t := by
  cases r <;> simp [andThen]

@[simp] theorem withinBounds_some (s : State) : withinBounds (some s) = .next s := rfl

theorem withinBounds_eq_next {o : Option State} {t : State} : withinBounds o = .next t ↔ o = some t := by
  cases o <;> simp [withinBounds]

/-! ### Capacity -/

theorem eight_le_msgCap (s : State) : 8 ≤ s.msgCap := by
  simp only [State.msgCap, Capacity.bytes]; omega

theorem msgCap_le (s : State) : s.msgCap ≤ 16376 := by
  have := s.capacity.isLt
  simp only [State.msgCap, Capacity.bytes]; omega

theorem msgCap_mod (s : State) : s.msgCap % 8 = 0 := by
  simp [State.msgCap, Capacity.bytes]

theorem outCap_eq (s : State) : s.outCap = s.msgCap + 8 := rfl

/-! ### The checks -/

theorem padCount_le (i : Instr) (n : Nat) : padCount i n ≤ 8 := by
  unfold padCount; split <;> (try split) <;> omega

theorem boundsFails_eq_false {i : Instr} {s : State} :
    boundsFails i s.msgCap s.inLen.toNat = false ↔ BoundsOk i s := by
  cases i <;> simp [boundsFails, BoundsOk, opOf]

theorem alignFails_eq_false {i : Instr} {s : State} :
    alignFails i s.inLen.toNat = false ↔ AlignOk i s := by
  cases i <;> simp [alignFails, AlignOk, opOf, skipOf]

theorem BoundsOk.le {i : Instr} {s : State} (h : BoundsOk i s) : s.inLen.toNat ≤ s.msgCap := by
  have := eight_le_msgCap s
  have h1 := h.1
  have h2 := h.2
  cases i <;> simp [opOf] at h1 h2 <;> omega

theorem padded_mod {i : Instr} {s : State} (h : AlignOk i s) (hb : BoundsOk i s) :
    (s.inLen.toNat + padCount i s.inLen.toNat) % 8 = 0 := by
  have h1 := h.1
  have h2 := h.2
  have h3 := hb.2
  cases i with
  | encEcb sk iv => cases sk <;> simp_all [opOf, skipOf, padCount]; omega
  | encCbc sk iv => cases sk <;> simp_all [opOf, skipOf, padCount]; omega
  | decEcb sk iv => simp_all [opOf, skipOf, padCount]
  | decCbc sk iv => simp_all [opOf, skipOf, padCount]
  | encb => simp_all [opOf, skipOf, padCount]
  | decb => simp_all [opOf, skipOf, padCount]

/-! ### Acceptance -/

theorem initialChain_isSome (i : Instr) (s : State) : ∃ c, initialChain i s = some c := by
  unfold initialChain
  split
  · split
    · exact ⟨_, ivBlockOf_eq s⟩
    · exact ⟨_, rfl⟩
  · exact ⟨_, rfl⟩

/-- Initialisation never breaks the codec's bounds. -/
theorem initCommand_eq {i : Instr} {n : Nat} {s : State} {kw : KeyWords} {c : Block} (hk : keyWordsOf s = some kw)
    (hc : initialChain i s = some c) : initCommand i n s =
    some { s with
      kw, chain := c, nlen := n, padn := padCount i n, nblk := (n + padCount i n) / 8, blk := 0,
      status := { s.status with state := .busy } } := by
  rw [initCommand, hk, hc]

/-- The meaning of a command that is not BUSY is its acceptance. -/
theorem exec_of_not_busy (i : Instr) {s : State} (h : s.status.state ≠ .busy) : exec i s = accept i s := by
  have hb : s.isBusy = false := by simp [State.isBusy, h]
  cases i <;> simp [exec, execEncEcb, execEncCbc, execDecEcb, execDecCbc, execEncb, execDecb, hb]

theorem OperandsKept.refl (s : State) : OperandsKept s s := ⟨rfl, rfl, rfl, rfl, fun _ => rfl, rfl, rfl, rfl⟩

theorem OperandsKept.trans {s t u : State} (h : OperandsKept s t) (h' : OperandsKept t u) : OperandsKept s u :=
  ⟨h'.key.trans h.key, h'.iv.trans h.iv, h'.irqEn.trans h.irqEn, h'.inLen.trans h.inLen,
    fun a => (h'.inBytes a).trans (h.inBytes a), h'.capacity.trans h.capacity, h'.events.trans h.events,
    h'.reply.trans h.reply⟩

theorem beginCommand_kept (c : Byte) (s : State) : OperandsKept s (beginCommand c s) :=
  ⟨rfl, rfl, rfl, rfl, fun _ => rfl, rfl, rfl, rfl⟩

theorem raiseError_kept (e : ErrorCause) (s : State) : OperandsKept s (raiseError e s) :=
  ⟨rfl, rfl, rfl, rfl, fun _ => rfl, rfl, rfl, rfl⟩

/-- The draw after OUT's is that of the internal registers (60_exceptions.md R171). -/
theorem raiseError_internals (e : ErrorCause) (s : State) : InternalsDrawn s (raiseError e s) :=
  ⟨s.drawn + 1, ⟨by simp, by simp, rfl⟩, by simp⟩

theorem raiseError_entry (e : ErrorCause) (s : State) : ErrorEntry e s (raiseError e s) :=
  ⟨rfl, rfl, rfl, rfl, by simp, raiseError_internals e s, raiseError_kept e s⟩

theorem beginCommand_entry (e : ErrorCause) (c : Byte) (s : State) : ErrorEntry e s (raiseError e (beginCommand c s)) :=
  ⟨rfl, rfl, rfl, rfl, by simp, ⟨s.drawn + 2, ⟨by simp, by simp, rfl⟩, by simp⟩, (beginCommand_kept c s).trans (raiseError_kept _ _)⟩

theorem accept_eq (i : Instr) (s : State) : accept i s =
    if boundsFails i s.msgCap s.inLen.toNat then .next (raiseError .bounds (beginCommand (encode i) s))
    else if alignFails i s.inLen.toNat then .next (raiseError .alignment (beginCommand (encode i) s))
    else withinBounds (initCommand i s.inLen.toNat (beginCommand (encode i) s)) := rfl

/-- Everything acceptance can do (R130): a bounds error, an alignment error, or BUSY with the command accepted. -/
theorem accept_cases (i : Instr) (s : State) :
    (¬ BoundsOk i s ∧ accept i s = .next (raiseError .bounds (beginCommand (encode i) s))) ∨
    (BoundsOk i s ∧ ¬ AlignOk i s ∧ accept i s = .next (raiseError .alignment (beginCommand (encode i) s))) ∨
    (BoundsOk i s ∧ AlignOk i s ∧ ∃ t, accept i s = .next t ∧ Accepted i t ∧ OperandsKept s t ∧
      initCommand i s.inLen.toNat (beginCommand (encode i) s) = some t) := by
  by_cases hb : boundsFails i s.msgCap s.inLen.toNat = false
  · by_cases ha : alignFails i s.inLen.toNat = false
    · refine .inr (.inr ⟨boundsFails_eq_false.1 hb, alignFails_eq_false.1 ha, ?_⟩)
      obtain ⟨c, hc⟩ := initialChain_isSome i (beginCommand (encode i) s)
      have hk := keyWordsOf_eq (beginCommand (encode i) s)
      have hi := initCommand_eq (i := i) (n := s.inLen.toNat) hk hc
      refine ⟨_, ?_, ?_, ?_, hi⟩
      · rw [accept_eq]
        rw [if_neg (by simp [hb]), if_neg (by simp [ha]), hi]
        rfl
      · refine ⟨rfl, rfl, rfl, rfl, boundsFails_eq_false.1 hb, alignFails_eq_false.1 ha, hk, ?_, rfl, rfl, rfl, rfl, rfl,
          rfl⟩
        intro hm
        rw [initialChain, if_pos hm] at hc ⊢
        exact hc
      · exact ⟨rfl, rfl, rfl, rfl, fun _ => rfl, rfl, rfl, rfl⟩
    · refine .inr (.inl ⟨boundsFails_eq_false.1 hb, fun h => ha (alignFails_eq_false.2 h), ?_⟩)
      rw [accept_eq]
      rw [if_neg (by simp [hb]), if_pos (by simpa using ha)]
  · refine .inl ⟨fun h => hb (boundsFails_eq_false.2 h), ?_⟩
    rw [accept_eq]
    rw [if_pos (by simpa using hb)]

/-- An accepted command's acceptance stops nowhere. -/
theorem accept_next (i : Instr) (s : State) : ∃ t, accept i s = .next t := by
  rcases accept_cases i s with ⟨-, h⟩ | ⟨-, -, h⟩ | ⟨-, -, t, h, -⟩ <;> exact ⟨_, h⟩

/-! ### Chunks -/

/-- What no chunk of a command changes. -/
structure EngineKept (s t : State) : Prop where
  capacity : t.capacity = s.capacity
  key : t.key = s.key
  iv : t.iv = s.iv
  cmd : t.cmd = s.cmd
  status : t.status = s.status
  irqEn : t.irqEn = s.irqEn
  inLen : t.inLen = s.inLen
  outLen : t.outLen = s.outLen
  inMem : t.inMem = s.inMem
  kw : t.kw = s.kw
  opc : t.opc = s.opc
  nlen : t.nlen = s.nlen
  padn : t.padn = s.padn
  nblk : t.nblk = s.nblk
  events : t.events = s.events
  reply : t.reply = s.reply
  drawn : t.drawn = s.drawn
  inDraw : t.inDraw = s.inDraw
  outDraw : t.outDraw = s.outDraw

theorem EngineKept.refl (s : State) : EngineKept s s :=
  ⟨rfl, rfl, rfl, rfl, rfl, rfl, rfl, rfl, rfl, rfl, rfl, rfl, rfl, rfl, rfl, rfl, rfl, rfl, rfl⟩

theorem EngineKept.trans {s t u : State} (h : EngineKept s t) (g : EngineKept t u) : EngineKept s u :=
  ⟨g.1.trans h.1, g.2.trans h.2, g.3.trans h.3, g.4.trans h.4, g.5.trans h.5, g.6.trans h.6, g.7.trans h.7,
    g.8.trans h.8, g.9.trans h.9, g.10.trans h.10, g.11.trans h.11, g.12.trans h.12, g.13.trans h.13, g.14.trans h.14,
    g.15.trans h.15, g.16.trans h.16, g.17.trans h.17, g.18.trans h.18, g.19.trans h.19⟩

theorem EngineKept.inByte {s t : State} (h : EngineKept s t) (a : Nat) : t.inByte a = s.inByte a := by
  simp [State.inByte, h.inMem, h.inDraw]

theorem EngineKept.msgCap {s t : State} (h : EngineKept s t) : t.msgCap = s.msgCap := by
  simp [State.msgCap, h.capacity]

theorem EngineKept.chunkBlock {s t : State} (h : EngineKept s t) (b : Nat) : chunkBlock t b = chunkBlock s b := by
  refine blockOfBytes_congr fun j _ => ?_
  simp [chunkByte, h.nlen, h.padn, h.inByte]

theorem EngineKept.operands {s t : State} (h : EngineKept s t) : OperandsKept s t :=
  ⟨h.key, h.iv, h.irqEn, h.inLen, h.inByte, h.capacity, h.events, h.reply⟩

/-- One chunk, done: block `x` stored at 8*BLK, CHAIN now `c`, BLK advanced, RND as the engine leaves it. -/
structure ChunkDone (x c : Block) (s t : State) : Prop where
  kept : EngineKept s t
  blk : t.blk = s.blk + 1
  outMem : t.outMem = storeWords s.outMem (8 * s.blk) [x.v0, x.v1]
  chain : t.chain = c
  rnd : t.rnd = rounds

/-- What a command's chunks do, told by two functions of the chunk number and CHAIN: the block stored and the next
CHAIN. `s₀` is the state the chunks start from. -/
structure ChunkSpec (body : State → Result) (out next : Nat → Block → Block) (s₀ : State) : Prop where
  chunk : ∀ s, EngineKept s₀ s → s.blk < s₀.nblk →
    ∃ t, body s = .next t ∧ ChunkDone (out s.blk s.chain) (next s.blk s.chain) s t

/-- CHAIN before chunk `b`. -/
def chainSeq (next : Nat → Block → Block) (c : Block) : Nat → Block
  | 0 => c
  | b + 1 => next b (chainSeq next c b)

/-- The state after the first `n` chunks. -/
structure ChunksDone (out next : Nat → Block → Block) (n : Nat) (s₀ t : State) : Prop where
  kept : EngineKept s₀ t
  blk : t.blk = n
  outMem : ∀ a, t.outMem.find a =
    if a < 8 * n then some (byteOfBlock (out (a / 8) (chainSeq next s₀.chain (a / 8))) (a % 8)) else s₀.outMem.find a
  wf : s₀.outMem.wf = true → t.outMem.wf = true
  chain : t.chain = chainSeq next s₀.chain n
  rnd : t.rnd = if n = 0 then s₀.rnd else rounds

theorem runChunks_succ (body : State → Result) (n : Nat) (s : State) :
    runChunks body (n + 1) s = andThen (runChunks body n s) body := by
  induction n generalizing s with
  | zero => simp only [runChunks, andThen_next]; cases body s <;> rfl
  | succ n ih =>
    rw [runChunks]
    cases h : body s with
    | next t => rw [andThen_next, ih, runChunks, h, andThen_next]
    | fault e => simp [runChunks, h, andThen]
    | refused e => simp [runChunks, h, andThen]

/-- A command's chunks, all of them, in order (R137). -/
theorem runChunks_spec {body : State → Result} {out next : Nat → Block → Block} {s₀ : State}
    (h : ChunkSpec body out next s₀) (h0 : s₀.blk = 0) : ∀ n, n ≤ s₀.nblk →
    ∃ t, runChunks body n s₀ = .next t ∧ ChunksDone out next n s₀ t := by
  intro n
  induction n with
  | zero => exact fun _ => ⟨s₀, rfl, .refl _, h0, fun a => (if_neg (by omega)).symm, id, rfl, rfl⟩
  | succ n ih =>
    intro hn
    obtain ⟨t, ht, hd⟩ := ih (by omega)
    obtain ⟨u, hu, hc⟩ := h.chunk t hd.kept (by rw [hd.blk]; omega)
    rw [hd.blk, hd.chain] at hc
    refine ⟨u, by rw [runChunks_succ, ht, andThen_next, hu], hd.kept.trans hc.kept, by rw [hc.blk, hd.blk], ?_, ?_, hc.chain,
      by rw [hc.rnd, if_neg (by omega)]⟩
    · intro a
      rw [hc.outMem, hd.blk, find_storeWords_block]
      by_cases ha : 8 * n ≤ a ∧ a < 8 * n + 8
      · rw [if_pos ha, if_pos (by omega)]
        have h1 : a / 8 = n := by omega
        have h2 : a - 8 * n = a % 8 := by omega
        rw [h1, h2]
      · rw [if_neg ha, hd.outMem]
        by_cases ha' : a < 8 * n
        · rw [if_pos ha', if_pos (by omega)]
        · rw [if_neg ha', if_neg (by omega)]
    · intro hw
      rw [hc.outMem]
      exact wf_storeWords _ (hd.wf hw) _

/-! ### The six bodies -/

/-- A chunk whose load and store stay within the buffers: `x` is the block after the transform. -/
theorem processChunk_eq {load : State → Option State} {transform : State → State} {off : Nat} {s l : State}
    (hl : load s = some l) (hcap : off + 8 ≤ (transform l).outCap) :
    processChunk load transform off s = .next { transform l with
      outMem := storeWords (transform l).outMem off [(transform l).v.v0, (transform l).v.v1]
      blk := (transform l).blk + 1 } := by
  rw [processChunk]
  simp only [hl, storeOut_eq hcap, Option.bind_eq_bind, Option.bind_some]
  rfl

/-- A mode operation on a loaded block: it leaves everything but V, SUM, RND, PREV and CHAIN alone. -/
structure ModeKept (s t : State) : Prop where
  kept : EngineKept s t
  blk : t.blk = s.blk
  outMem : t.outMem = s.outMem
  rnd : t.rnd = rounds

theorem encipherV_kept (s : State) : ModeKept s (encipherV s) := by
  rw [encipherV_eq]
  exact ⟨⟨rfl, rfl, rfl, rfl, rfl, rfl, rfl, rfl, rfl, rfl, rfl, rfl, rfl, rfl, rfl, rfl, rfl, rfl, rfl⟩, rfl, rfl, rfl⟩

theorem decipherV_kept (s : State) : ModeKept s (decipherV s) := by
  rw [decipherV_eq]
  exact ⟨⟨rfl, rfl, rfl, rfl, rfl, rfl, rfl, rfl, rfl, rfl, rfl, rfl, rfl, rfl, rfl, rfl, rfl, rfl, rfl⟩, rfl, rfl, rfl⟩

theorem cbcEncrypt_eq (s : State) : cbcEncrypt s =
    { s with
      v := encipherBlock s.kw (s.v.xor s.chain), sum := 0xC6EF3720#32, rnd := 32,
      chain := encipherBlock s.kw (s.v.xor s.chain) } := by
  rw [cbcEncrypt, encipherV_eq]

theorem cbcDecrypt_eq (s : State) : cbcDecrypt s =
    { s with
      v := (decipherBlock s.kw s.v).xor s.chain, sum := 0x00000000#32, rnd := 32,
      prev := s.v, chain := s.v } := by
  rw [cbcDecrypt, decipherV_eq]

theorem cbcEncrypt_kept (s : State) : ModeKept s (cbcEncrypt s) := by
  rw [cbcEncrypt_eq]
  exact ⟨⟨rfl, rfl, rfl, rfl, rfl, rfl, rfl, rfl, rfl, rfl, rfl, rfl, rfl, rfl, rfl, rfl, rfl, rfl, rfl⟩, rfl, rfl, rfl⟩

theorem cbcDecrypt_kept (s : State) : ModeKept s (cbcDecrypt s) := by
  rw [cbcDecrypt_eq]
  exact ⟨⟨rfl, rfl, rfl, rfl, rfl, rfl, rfl, rfl, rfl, rfl, rfl, rfl, rfl, rfl, rfl, rfl, rfl, rfl, rfl⟩, rfl, rfl, rfl⟩

theorem cbcEncrypt_v (s : State) : (cbcEncrypt s).v = encipherBlock s.kw (s.v.xor s.chain) := by rw [cbcEncrypt_eq]

theorem cbcEncrypt_chain (s : State) : (cbcEncrypt s).chain = encipherBlock s.kw (s.v.xor s.chain) := by
  rw [cbcEncrypt_eq]

theorem cbcDecrypt_v (s : State) : (cbcDecrypt s).v = (decipherBlock s.kw s.v).xor s.chain := by rw [cbcDecrypt_eq]

theorem cbcDecrypt_chain (s : State) : (cbcDecrypt s).chain = s.v := by rw [cbcDecrypt_eq]

theorem withV_kept (s : State) (v : Block) : EngineKept s { s with v } :=
  ⟨rfl, rfl, rfl, rfl, rfl, rfl, rfl, rfl, rfl, rfl, rfl, rfl, rfl, rfl, rfl, rfl, rfl, rfl, rfl⟩

/-- The common form of the bodies: load a block at BLK, transform it, store it at 8*BLK. -/
theorem chunkSpec_of {load : State → Option State} {transform : State → State} {out next : Nat → Block → Block}
    {s : State} {v : Block} (hl : load s = some { s with v })
    (ht : ModeKept { s with v } (transform { s with v })) (hcap : 8 * s.blk + 8 ≤ s.outCap)
    (hv : (transform { s with v }).v = out s.blk s.chain) (hc : (transform { s with v }).chain = next s.blk s.chain) :
    ∃ t, processChunk load transform (8 * s.blk) s = .next t ∧ ChunkDone (out s.blk s.chain) (next s.blk s.chain) s t := by
  have hcap' : 8 * s.blk + 8 ≤ (transform { s with v }).outCap := by
    rw [outCap_eq, ht.kept.msgCap]; exact hcap
  refine ⟨_, processChunk_eq hl hcap', ?_, ?_, ?_, hc, ht.rnd⟩
  · have h := (withV_kept s v).trans ht.kept
    exact ⟨h.1, h.2, h.3, h.4, h.5, h.6, h.7, h.8, h.9, h.10, h.11, h.12, h.13, h.14, h.15, h.16, h.17, h.18, h.19⟩
  · exact congrArg (· + 1) ht.blk
  · rw [hv, ht.outMem]

theorem encryptChunk_ecb_spec {s₀ : State} (h : 8 * s₀.nblk ≤ s₀.outCap) :
    ChunkSpec (encryptChunk ecbEncrypt) (fun b _ => encipherBlock s₀.kw (chunkBlock s₀ b)) (fun _ c => c) s₀ where
  chunk s hk hb :=
    chunkSpec_of (out := fun b _ => encipherBlock s₀.kw (chunkBlock s₀ b)) (next := fun _ c => c) (loadChunk_eq s)
      (encipherV_kept _) (by rw [outCap_eq, hk.msgCap, ← outCap_eq]; omega)
      (by rw [ecbEncrypt, encipherV_v, hk.kw, hk.chunkBlock]) (by rw [ecbEncrypt, encipherV_eq])

theorem encryptChunk_cbc_spec {s₀ : State} (h : 8 * s₀.nblk ≤ s₀.outCap) :
    ChunkSpec (encryptChunk cbcEncrypt) (fun b c => encipherBlock s₀.kw ((chunkBlock s₀ b).xor c))
      (fun b c => encipherBlock s₀.kw ((chunkBlock s₀ b).xor c)) s₀ where
  chunk s hk hb :=
    chunkSpec_of (out := fun b c => encipherBlock s₀.kw ((chunkBlock s₀ b).xor c))
      (next := fun b c => encipherBlock s₀.kw ((chunkBlock s₀ b).xor c)) (loadChunk_eq s)
      (cbcEncrypt_kept _) (by rw [outCap_eq, hk.msgCap, ← outCap_eq]; omega)
      (by rw [cbcEncrypt_v, hk.kw, hk.chunkBlock]) (by rw [cbcEncrypt_chain, hk.kw, hk.chunkBlock])

theorem EngineKept.inBlock {s t : State} (h : EngineKept s t) (b : Nat) : inBlock t b = inBlock s b :=
  blockOfBytes_congr fun j _ => h.inByte (8 * b + j)

theorem loadIn_block {s : State} {b : Nat} (h : 8 * b + 8 ≤ s.msgCap) :
    loadIn (8 * b) s = some { s with v := inBlock s b } := loadIn_eq h

theorem decryptChunk_ecb_spec {s₀ : State} (h : 8 * s₀.nblk ≤ s₀.msgCap) :
    ChunkSpec (decryptChunk ecbDecrypt) (fun b _ => decipherBlock s₀.kw (inBlock s₀ b)) (fun _ c => c) s₀ where
  chunk s hk hb :=
    chunkSpec_of (out := fun b _ => decipherBlock s₀.kw (inBlock s₀ b)) (next := fun _ c => c)
      (loadIn_block (by rw [hk.msgCap]; omega)) (decipherV_kept _) (by rw [outCap_eq, hk.msgCap]; omega)
      (by rw [ecbDecrypt, decipherV_v, hk.kw, hk.inBlock]) (by rw [ecbDecrypt, decipherV_eq])

theorem decryptChunk_cbc_spec {s₀ : State} (h : 8 * s₀.nblk ≤ s₀.msgCap) :
    ChunkSpec (decryptChunk cbcDecrypt) (fun b c => (decipherBlock s₀.kw (inBlock s₀ b)).xor c)
      (fun b _ => inBlock s₀ b) s₀ where
  chunk s hk hb :=
    chunkSpec_of (out := fun b c => (decipherBlock s₀.kw (inBlock s₀ b)).xor c) (next := fun b _ => inBlock s₀ b)
      (loadIn_block (by rw [hk.msgCap]; omega)) (cbcDecrypt_kept _) (by rw [outCap_eq, hk.msgCap]; omega)
      (by rw [cbcDecrypt_v, hk.kw, hk.inBlock]) (by rw [cbcDecrypt_chain, hk.inBlock])

theorem blockChunk_encipher_spec {s₀ : State} (h : s₀.nblk = 1) :
    ChunkSpec (blockChunk encipherV) (fun b _ => encipherBlock s₀.kw (inBlock s₀ b)) (fun _ c => c) s₀ where
  chunk s hk hb := by
    have hblk : s.blk = 0 := by omega
    have hcap := eight_le_msgCap s
    have hs := chunkSpec_of (s := s) (load := loadIn (8 * s.blk)) (transform := encipherV)
      (out := fun b _ => encipherBlock s₀.kw (inBlock s₀ b)) (next := fun _ c => c)
      (loadIn_block (by omega)) (encipherV_kept _) (by rw [outCap_eq]; omega)
      (by rw [encipherV_v, hk.kw, hk.inBlock]) (by rw [encipherV_eq])
    rwa [show 8 * s.blk = 0 by omega] at hs

theorem blockChunk_decipher_spec {s₀ : State} (h : s₀.nblk = 1) :
    ChunkSpec (blockChunk decipherV) (fun b _ => decipherBlock s₀.kw (inBlock s₀ b)) (fun _ c => c) s₀ where
  chunk s hk hb := by
    have hblk : s.blk = 0 := by omega
    have hcap := eight_le_msgCap s
    have hs := chunkSpec_of (s := s) (load := loadIn (8 * s.blk)) (transform := decipherV)
      (out := fun b _ => decipherBlock s₀.kw (inBlock s₀ b)) (next := fun _ c => c)
      (loadIn_block (by omega)) (decipherV_kept _) (by rw [outCap_eq]; omega)
      (by rw [decipherV_v, hk.kw, hk.inBlock]) (by rw [decipherV_eq])
    rwa [show 8 * s.blk = 0 by omega] at hs

end Sys2Proof.Machine
end

