-- ==== Sys2Proof/Laws/Commands.lean ====
section
/-! SUPPORT. What the complete step of an accepted command leaves, told once for the six commands: the lemmas the proofs
about a command cite. -/

namespace Sys2Proof.Machine

/-! ### The sizes of an accepted command -/

theorem Accepted.size {i : Instr} {s : State} (h : Accepted i s) : 8 * s.nblk = s.nlen + s.padn := by
  have h1 := padded_mod h.align h.bounds
  rw [← h.nlen, ← h.padn] at h1
  have h2 := h.nblk
  omega

theorem Accepted.nlen_le {i : Instr} {s : State} (h : Accepted i s) : s.nlen ≤ s.msgCap := by
  rw [h.nlen]; exact h.bounds.le

theorem Accepted.padn_le {i : Instr} {s : State} (h : Accepted i s) : s.padn ≤ 8 := by
  rw [h.padn]; exact padCount_le _ _

theorem Accepted.size_le {i : Instr} {s : State} (h : Accepted i s) : 8 * s.nblk ≤ s.outCap := by
  have h1 := h.size
  have h2 := h.nlen_le
  have h3 := h.padn_le
  rw [outCap_eq]; omega

theorem Accepted.isBusy {i : Instr} {s : State} (h : Accepted i s) : s.isBusy = true := by
  simp [State.isBusy, h.state]

/-- For the commands that add no padding, the chunks are exactly the message. -/
theorem Accepted.size_of_not_encrypt {i : Instr} {s : State} (h : Accepted i s) (hop : opOf i ≠ .encrypt) :
    8 * s.nblk = s.nlen := by
  have h1 := h.size
  have h2 := h.padn
  rw [padCount] at h2
  cases hi : opOf i <;> simp_all

theorem Accepted.block_nlen {i : Instr} {s : State} (h : Accepted i s)
    (hop : opOf i = .encryptBlock ∨ opOf i = .decryptBlock) : s.nlen = 8 ∧ s.nblk = 1 := by
  have h1 : s.nlen = 8 := by rw [h.nlen]; exact h.bounds.2 hop
  have h2 := h.size_of_not_encrypt (by rcases hop with e | e <;> rw [e] <;> decide)
  omega

/-! ### The complete step -/

/-- The complete step of a command whose chunks are told by `out` and `next`: it stops nowhere, and its finish works on
the state after all chunks. -/
theorem complete_spec {body : State → Result} {out next : Nat → Block → Block} {s : State}
    (h : ChunkSpec body out next s) (h0 : s.blk = 0) (finish : State → State) :
    ∃ t, ChunksDone out next s.nblk s t ∧ runChunks body s.nblk s = .next t ∧
      complete body finish s = .next (finish t) := by
  obtain ⟨t, ht, hd⟩ := runChunks_spec h h0 s.nblk (Nat.le_refl _)
  refine ⟨t, hd, ht, ?_⟩
  rw [complete, h0, Nat.sub_zero, ht, andThen_next]

/-- The result bytes the chunks of a command leave in OUT. -/
def resultByte (out next : Nat → Block → Block) (s : State) (a : Nat) : Byte :=
  byteOfBlock (out (a / 8) (chainSeq next s.chain (a / 8))) (a % 8)

theorem ChunksDone.find {out next : Nat → Block → Block} {n : Nat} {s t : State} (h : ChunksDone out next n s t)
    {a : Nat} (ha : a < 8 * n) : t.outMem.find a = some (resultByte out next s a) := by
  rw [h.outMem, if_pos ha]; rfl

/-- The successful finish, after all chunks of an accepted command. -/
theorem finishDone_doneWith {out next : Nat → Block → Block} {i : Instr} {s t : State} (h : Accepted i s)
    (hd : ChunksDone out next s.nblk s t) {n : Nat} (hn : n ≤ 8 * s.nblk) :
    DoneWith n (resultByte out next s) s (finishDone n t) := by
  have hcap := h.size_le
  have hmax := msgCap_le s
  rw [outCap_eq] at hcap
  refine ⟨by simp [hd.kept.status], by simp [hd.kept.cmd], ?_, fun a ha => ?_, fun a ha => ?_, by simp [hd.kept.outDraw],
    ⟨s.drawn, Nat.le_refl _, by simp [hd.kept.drawn], by rw [← hd.kept.drawn]; rfl⟩, ?_⟩
  · simp only [finishDone_outLen, BitVec.toNat_ofNat]
    exact Nat.mod_eq_of_lt (by omega)
  · rw [finishDone_outMem, Memory.find_truncate, if_pos ha, hd.find (by omega)]
  · rw [finishDone_outMem, Memory.find_truncate, if_neg (by omega)]
  · exact hd.kept.operands.trans ⟨rfl, rfl, rfl, rfl, fun _ => rfl, rfl, rfl, rfl⟩

/-- The registers of the command after its last chunk. -/
theorem ChunksDone.registers {out next : Nat → Block → Block} {s t : State} (hd : ChunksDone out next s.nblk s t) :
    CommandRegistersKept s t :=
  ⟨hd.kept.kw, hd.kept.opc, hd.kept.nlen, hd.kept.padn, hd.kept.nblk, hd.blk⟩

/-- The byte the strip reads (R139), after all chunks of an accepted command with a message. -/
theorem ChunksDone.lastByte {out next : Nat → Block → Block} {s t : State} (hd : ChunksDone out next s.nblk s t)
    {n : Nat} (hn : 0 < n) (hle : n ≤ 8 * s.nblk) : t.outByte (n - 1) = resultByte out next s (n - 1) := by
  rw [State.outByte, hd.find (by omega)]; rfl

/-! ### The meaning of a BUSY command -/

theorem exec_encEcb_busy {s : State} (h : s.isBusy = true) (skip iv : Bool) :
    exec (.encEcb skip iv) s = complete (encryptChunk ecbEncrypt) finishEncrypt s := by
  simp [exec, execEncEcb, h]

theorem exec_encCbc_busy {s : State} (h : s.isBusy = true) (skip iv : Bool) :
    exec (.encCbc skip iv) s = complete (encryptChunk cbcEncrypt) finishEncrypt s := by
  simp [exec, execEncCbc, h]

theorem exec_decEcb_busy {s : State} (h : s.isBusy = true) (skip iv : Bool) :
    exec (.decEcb skip iv) s = complete (decryptChunk ecbDecrypt) (finishDecrypt skip) s := by
  simp [exec, execDecEcb, h]

theorem exec_decCbc_busy {s : State} (h : s.isBusy = true) (skip iv : Bool) :
    exec (.decCbc skip iv) s = complete (decryptChunk cbcDecrypt) (finishDecrypt skip) s := by
  simp [exec, execDecCbc, h]

theorem exec_encb_busy {s : State} (h : s.isBusy = true) : exec .encb s = complete (blockChunk encipherV) finishBlock s := by
  simp [exec, execEncb, h]

theorem exec_decb_busy {s : State} (h : s.isBusy = true) : exec .decb s = complete (blockChunk decipherV) finishBlock s := by
  simp [exec, execDecb, h]

/-- A command's complete step is its chunks and then its finish. -/
theorem exec_busy_eq {s : State} (h : s.isBusy = true) (i : Instr) :
    exec i s = complete (chunkBodyOf i) (finishOf i) s := by
  cases i with
  | encEcb k v => exact exec_encEcb_busy h k v
  | encCbc k v => exact exec_encCbc_busy h k v
  | decEcb k v => exact exec_decEcb_busy h k v
  | decCbc k v => exact exec_decCbc_busy h k v
  | encb => exact exec_encb_busy h
  | decb => exact exec_decb_busy h

/-- Where the chunks of a command end in `u`, its complete step ends in the finish of `u`. -/
theorem exec_of_afterChunks {i : Instr} {s u : State} (h : s.isBusy = true) (hu : afterChunks i s = .next u) :
    exec i s = .next (finishOf i u) := by
  rw [exec_busy_eq h, complete, ← afterChunks, hu, andThen_next]

/-! ### The strip -/

/-- Everything the strip can do (R139). -/
theorem strip_cases (s : State) :
    ((s.nlen = 0 ∨ s.nlen < (s.outByte (s.nlen - 1)).toNat) ∧ strip s = raiseError .padding s) ∨
    (s.nlen ≠ 0 ∧ (s.outByte (s.nlen - 1)).toNat ≤ s.nlen ∧
      strip s = finishDone (s.nlen - (s.outByte (s.nlen - 1)).toNat) s) := by
  unfold strip
  split
  · next h => exact .inl ⟨.inl h, rfl⟩
  · next h =>
    dsimp only
    split
    · next h' => exact .inl ⟨.inr h', rfl⟩
    · next h' => exact .inr ⟨h, by omega, rfl⟩

/-- Everything the strip can do after all chunks of an accepted command without padding of its own (R139). -/
theorem strip_done {out next : Nat → Block → Block} {s t : State} (hd : ChunksDone out next s.nblk s t)
    (hn : 8 * s.nblk = s.nlen) :
    ((s.nlen = 0 ∨ s.nlen < (resultByte out next s (s.nlen - 1)).toNat) ∧ strip t = raiseError .padding t) ∨
    (s.nlen ≠ 0 ∧ (resultByte out next s (s.nlen - 1)).toNat ≤ s.nlen ∧
      strip t = finishDone (s.nlen - (resultByte out next s (s.nlen - 1)).toNat) t) := by
  have h := strip_cases t
  rw [hd.kept.nlen] at h
  by_cases h0 : s.nlen = 0
  · rcases h with ⟨-, h⟩ | ⟨h1, -⟩
    · exact .inl ⟨.inl h0, h⟩
    · exact absurd h0 h1
  · rw [hd.lastByte (by omega) (by omega)] at h
    exact h

/-- A PaddingError after all chunks of an accepted command. -/
theorem padding_entry {out next : Nat → Block → Block} {n : Nat} {s t : State} (hd : ChunksDone out next n s t) :
    ErrorEntry .padding s (raiseError .padding t) :=
  ⟨rfl, rfl, rfl, rfl, by simp [hd.kept.drawn], ⟨s.drawn + 1, ⟨by simp, by simp [hd.kept.drawn],
    by rw [← hd.kept.drawn]; rfl⟩, by simp [hd.kept.drawn]⟩, hd.kept.operands.trans (raiseError_kept _ _)⟩

/-! ### What holds of every complete step, accepted or not -/

/-- What every chunk does, all chunks do: a reflexive and transitive relation that each chunk keeps. -/
theorem runChunks_rel {body : State → Result} {rel : State → State → Prop} (hr : ∀ s, rel s s)
    (ht : ∀ s t u, rel s t → rel t u → rel s u) (hb : ∀ s t, body s = .next t → rel s t) :
    ∀ (n : Nat) (s t : State), runChunks body n s = .next t → rel s t := by
  intro n
  induction n with
  | zero => intro s t h; cases h; exact hr s
  | succ n ih =>
    intro s t h
    obtain ⟨u, hu, h⟩ := andThen_eq_next.1 h
    exact ht s u t (hb s u hu) (ih u t h)

/-- What a chunk changes at most, whatever state it starts from. -/
structure ChunkKept (s t : State) : Prop where
  kept : EngineKept s t
  wf : s.outMem.wf = true → t.outMem.wf = true
  rnd : s.rnd ≤ rounds → t.rnd ≤ rounds

theorem loadChunk_kept {s l : State} (h : loadChunk s = some l) : EngineKept s l ∧ l.outMem = s.outMem ∧ l.prev = s.prev := by
  rw [loadChunk_eq] at h
  cases h
  exact ⟨withV_kept s _, rfl, rfl⟩

theorem loadIn_kept {off : Nat} {s l : State} (h : loadIn off s = some l) :
    EngineKept s l ∧ l.outMem = s.outMem ∧ l.prev = s.prev := by
  obtain ⟨v, -, rfl⟩ := Option.map_eq_some_iff.1 h
  exact ⟨withV_kept s _, rfl, rfl⟩

/-- A chunk that goes on: it loaded, transformed and stored. -/
theorem processChunk_next {load : State → Option State} {transform : State → State} {off : Nat} {s t : State}
    (h : processChunk load transform off s = .next t) :
    ∃ l, load s = some l ∧ t = { transform l with
      outMem := storeWords (transform l).outMem off [(transform l).v.v0, (transform l).v.v1]
      blk := (transform l).blk + 1 } := by
  have h' := withinBounds_eq_next.1 h
  cases hl : load s with
  | none => simp [hl] at h'
  | some l =>
    refine ⟨l, rfl, ?_⟩
    by_cases hc : off + 8 ≤ (transform l).outCap
    · rw [processChunk_eq hl hc] at h
      cases h
      rfl
    · have hs : storeOut off (transform l) = none := by
        have : ¬ off + 4 * [(transform l).v.v0, (transform l).v.v1].length ≤ (transform l).outCap := hc
        rw [storeOut, wordsToBytes, if_neg this]
        rfl
      simp [hl, hs] at h'

theorem processChunk_kept {load : State → Option State} {transform : State → State} {off : Nat} {s t : State}
    (hload : ∀ l, load s = some l → EngineKept s l ∧ l.outMem = s.outMem ∧ l.prev = s.prev)
    (htr : ∀ l, ModeKept l (transform l)) (h : processChunk load transform off s = .next t) : ChunkKept s t := by
  obtain ⟨l, hl, rfl⟩ := processChunk_next h
  obtain ⟨hk, ho, -⟩ := hload l hl
  have hm := hk.trans (htr l).kept
  refine ⟨⟨hm.1, hm.2, hm.3, hm.4, hm.5, hm.6, hm.7, hm.8, hm.9, hm.10, hm.11, hm.12, hm.13, hm.14, hm.15, hm.16, hm.17,
    hm.18, hm.19⟩, fun hw => ?_, fun _ => Nat.le_of_eq (htr l).rnd⟩
  exact wf_storeWords _ (by rw [(htr l).outMem, ho]; exact hw) _

theorem processChunk_prev {load : State → Option State} {transform : State → State} {off : Nat} {s t : State}
    (hload : ∀ l, load s = some l → EngineKept s l ∧ l.outMem = s.outMem ∧ l.prev = s.prev)
    (htr : ∀ l, (transform l).prev = l.prev) (h : processChunk load transform off s = .next t) : t.prev = s.prev := by
  obtain ⟨l, hl, rfl⟩ := processChunk_next h
  exact (htr l).trans (hload l hl).2.2

theorem encipherV_prev (s : State) : (encipherV s).prev = s.prev := by rw [encipherV_eq]

theorem decipherV_prev (s : State) : (decipherV s).prev = s.prev := by rw [decipherV_eq]

theorem cbcEncrypt_prev (s : State) : (cbcEncrypt s).prev = s.prev := by rw [cbcEncrypt_eq]

theorem encryptChunk_prev {f : State → State} (hf : ∀ l, (f l).prev = l.prev) {s t : State}
    (h : encryptChunk f s = .next t) : t.prev = s.prev :=
  processChunk_prev (fun _ => loadChunk_kept) hf h

theorem decryptChunk_prev {f : State → State} (hf : ∀ l, (f l).prev = l.prev) {s t : State}
    (h : decryptChunk f s = .next t) : t.prev = s.prev :=
  processChunk_prev (fun _ => loadIn_kept) hf h

theorem blockChunk_prev {f : State → State} (hf : ∀ l, (f l).prev = l.prev) {s t : State}
    (h : blockChunk f s = .next t) : t.prev = s.prev :=
  processChunk_prev (fun _ => loadIn_kept) hf h

theorem encryptChunk_kept {f : State → State} (hf : ∀ l, ModeKept l (f l)) {s t : State}
    (h : encryptChunk f s = .next t) : ChunkKept s t :=
  processChunk_kept (fun _ => loadChunk_kept) hf h

theorem decryptChunk_kept {f : State → State} (hf : ∀ l, ModeKept l (f l)) {s t : State}
    (h : decryptChunk f s = .next t) : ChunkKept s t :=
  processChunk_kept (fun _ => loadIn_kept) hf h

theorem blockChunk_kept {f : State → State} (hf : ∀ l, ModeKept l (f l)) {s t : State}
    (h : blockChunk f s = .next t) : ChunkKept s t :=
  processChunk_kept (fun _ => loadIn_kept) hf h

/-- A complete step that goes on: the state after the chunks, and the finish of it. -/
theorem complete_next {body : State → Result} {finish : State → State} {s t : State}
    (hb : ∀ s t, body s = .next t → ChunkKept s t) (h : complete body finish s = .next t) :
    ∃ u, ChunkKept s u ∧ t = finish u := by
  obtain ⟨u, hu, h⟩ := andThen_eq_next.1 h
  cases h
  exact ⟨u, runChunks_rel (rel := ChunkKept) (fun s => ⟨.refl s, id, id⟩)
    (fun _ _ _ h g => ⟨h.kept.trans g.kept, fun hw => g.wf (h.wf hw), fun hr => g.rnd (h.rnd hr)⟩) hb _ s u hu, rfl⟩

/-- PREV through chunks that leave it alone. -/
theorem runChunks_prev {body : State → Result} {n : Nat} {s t : State}
    (hb : ∀ s t, body s = .next t → t.prev = s.prev) (h : runChunks body n s = .next t) : t.prev = s.prev :=
  runChunks_rel (rel := fun s t => t.prev = s.prev) (fun _ => rfl) (fun _ _ _ h g => g.trans h) hb _ s t h

/-- Every command's complete step that goes on ends in DONE or in a PaddingError, and the chunks before changed nothing
but OUT and the engine's own registers. -/
theorem exec_busy_next {i : Instr} {s t : State} (hb : s.isBusy = true) (h : exec i s = .next t) :
    ∃ u, ChunkKept s u ∧ ((∃ n, t = finishDone n u) ∨ t = raiseError .padding u) := by
  have strip_or : ∀ (u : State) (k : Bool), (∃ n, finishDecrypt k u = finishDone n u) ∨ finishDecrypt k u = raiseError .padding u := by
    intro u k
    cases k
    · rcases strip_cases u with ⟨-, h⟩ | ⟨-, -, h⟩
      · exact .inr h
      · exact .inl ⟨_, h⟩
    · exact .inl ⟨_, rfl⟩
  cases i with
  | encEcb k v =>
    rw [exec_encEcb_busy hb] at h
    obtain ⟨u, hu, rfl⟩ := complete_next (fun _ _ => encryptChunk_kept encipherV_kept) h
    exact ⟨u, hu, .inl ⟨_, rfl⟩⟩
  | encCbc k v =>
    rw [exec_encCbc_busy hb] at h
    obtain ⟨u, hu, rfl⟩ := complete_next (fun _ _ => encryptChunk_kept cbcEncrypt_kept) h
    exact ⟨u, hu, .inl ⟨_, rfl⟩⟩
  | decEcb k v =>
    rw [exec_decEcb_busy hb] at h
    obtain ⟨u, hu, rfl⟩ := complete_next (fun _ _ => decryptChunk_kept decipherV_kept) h
    exact ⟨u, hu, strip_or u k⟩
  | decCbc k v =>
    rw [exec_decCbc_busy hb] at h
    obtain ⟨u, hu, rfl⟩ := complete_next (fun _ _ => decryptChunk_kept cbcDecrypt_kept) h
    exact ⟨u, hu, strip_or u k⟩
  | encb =>
    rw [exec_encb_busy hb] at h
    obtain ⟨u, hu, rfl⟩ := complete_next (fun _ _ => blockChunk_kept encipherV_kept) h
    exact ⟨u, hu, .inl ⟨_, rfl⟩⟩
  | decb =>
    rw [exec_decb_busy hb] at h
    obtain ⟨u, hu, rfl⟩ := complete_next (fun _ _ => blockChunk_kept decipherV_kept) h
    exact ⟨u, hu, .inl ⟨_, rfl⟩⟩

/-! ### What each command's chunks compute -/

theorem chainSeq_ecb (c : Block) (b : Nat) : chainSeq (fun _ c => c) c b = c := by
  induction b with
  | zero => rfl
  | succ b ih => exact ih

theorem chainSeq_cbcEncrypt (kw : KeyWords) (c : Block) (p : Nat → Block) (b : Nat) :
    encipherBlock kw ((p b).xor (chainSeq (fun b c => encipherBlock kw ((p b).xor c)) c b)) = cbcCipher kw c p b := by
  induction b with
  | zero => rfl
  | succ b ih => rw [cbcCipher, ← ih]; rfl

theorem chainSeq_cbcDecrypt (kw : KeyWords) (c : Block) (q : Nat → Block) (b : Nat) :
    (decipherBlock kw (q b)).xor (chainSeq (fun b _ => q b) c b) = cbcPlain kw c q b := by
  cases b <;> rfl

end Sys2Proof.Machine
end

