-- ==== Sys2Proof/Laws/HostPort.lean ====
section
/-! SUPPORT. The laws of the host port: the address map read both ways, what a transaction does, case by case, and what a
step does, event by event. -/

namespace Sys2Proof.Machine

/-! ### The address map (20_memory.md R40) -/

/-- The address of a location. -/
def Location.addr : Location → Nat
  | .key i => i.val
  | .iv i => 0x10 + i.val
  | .cmd => 0x18
  | .status => 0x19
  | .irqEn => 0x1A
  | .inLen i => 0x1C + i.val
  | .outLen i => 0x20 + i.val
  | .inBuf i => 0x4000 + i
  | .outBuf i => 0x8000 + i

/-- The location exists with that capacity. -/
def Location.exists (cap : Nat) : Location → Prop
  | .inBuf i => i < cap
  | .outBuf i => i < cap + 8
  | _ => True

theorem registerAt_some {a : Nat} {loc : Location} (h : registerAt a = some loc) :
    a = loc.addr ∧ ∀ cap, loc.exists cap := by
  unfold registerAt at h
  by_cases h1 : a < 0x10
  · rw [dif_pos h1] at h; cases h; exact ⟨rfl, fun _ => trivial⟩
  rw [dif_neg h1] at h
  repeat' split at h
  all_goals first
    | (cases h; done)
    | (cases h; refine ⟨?_, fun _ => trivial⟩; simp only [Location.addr]; omega)

theorem registerAt_none {a : Nat} : registerAt a = none ↔ a = 0x1B ∨ 0x24 ≤ a := by
  unfold registerAt
  by_cases h1 : a < 0x10
  · rw [dif_pos h1]; exact iff_of_false (by simp) (by omega)
  rw [dif_neg h1]
  repeat' split
  all_goals first | exact iff_of_false (by simp) (by omega) | exact iff_of_true rfl (by omega)

theorem windowAt_some {cap a : Nat} {loc : Location} (hlow : 0x4000 ≤ a) (h : windowAt cap a = some loc) :
    a = loc.addr ∧ loc.exists cap := by
  unfold windowAt at h
  repeat' split at h
  all_goals first
    | (cases h; done)
    | (cases h; simp only [Location.addr, Location.exists]; omega)

theorem windowAt_none {cap a : Nat} (hlow : 0x4000 ≤ a) :
    windowAt cap a = none ↔ (0x4000 + cap ≤ a ∧ a ≤ 0x7FFF) ∨ 0x8000 + cap + 8 ≤ a := by
  unfold windowAt
  repeat' split
  all_goals first | exact iff_of_false (by simp) (by omega) | exact iff_of_true rfl (by omega)

theorem locate_some {cap : Nat} {a : Addr} {loc : Location} (h : locate cap a = some loc) :
    a.toNat = loc.addr ∧ loc.exists cap := by
  unfold locate at h
  split at h
  · exact ⟨(registerAt_some h).1, (registerAt_some h).2 cap⟩
  · exact windowAt_some (by omega) h

theorem locate_none {cap : Nat} {a : Addr} :
    locate cap a = none ↔
      a.toNat = 0x1B ∨ (0x24 ≤ a.toNat ∧ a.toNat ≤ 0x3FFF) ∨ (0x4000 + cap ≤ a.toNat ∧ a.toNat ≤ 0x7FFF) ∨
        0x8000 + cap + 8 ≤ a.toNat := by
  unfold locate
  split
  · rw [registerAt_none]; omega
  · rw [windowAt_none (by omega)]; omega

/-- The map read both ways: a location is at its address, and nowhere else. -/
theorem locate_eq_some {cap : Nat} (hcap : cap ≤ 0x4000) {a : Addr} {loc : Location} :
    locate cap a = some loc ↔ a.toNat = loc.addr ∧ loc.exists cap := by
  refine ⟨locate_some, fun ⟨ha, he⟩ => ?_⟩
  cases hl : locate cap a with
  | none =>
    have := locate_none.1 hl
    cases loc <;> simp only [Location.addr, Location.exists] at ha he <;> omega
  | some loc' =>
    obtain ⟨ha', he'⟩ := locate_some hl
    cases loc <;> cases loc' <;> simp only [Location.addr, Location.exists] at ha he ha' he' <;>
      first
        | rfl
        | (exfalso; omega)
        | (congr 2; first | (apply Fin.ext; omega) | omega)

theorem msgCap_le_window (s : State) : s.msgCap ≤ 0x4000 := by
  have := msgCap_le s
  omega

/-- The locations whose writes are dropped while BUSY (R44), by address. -/
theorem locate_dropped {cap : Nat} (hcap : cap ≤ 0x4000) {a : Addr} {loc : Location} (h : locate cap a = some loc) :
    loc.droppedWhileBusy = true ↔
      a.toNat < 0x1A ∨ (0x1C ≤ a.toNat ∧ a.toNat < 0x20) ∨ (0x4000 ≤ a.toNat ∧ a.toNat < 0x4000 + cap) := by
  obtain ⟨ha, he⟩ := locate_some h
  cases loc <;> simp only [Location.addr, Location.exists, Location.droppedWhileBusy] at ha he ⊢ <;>
    first
      | exact iff_of_true trivial (by omega)
      | exact iff_of_false (by simp) (by omega)

/-! ### Writes -/

/-- Everything a write can do: BUSERR, dropped, or its effect. -/
theorem hostWrite_cases (a : Addr) (d : Byte) (s : State) :
    (locate s.msgCap a = none ∧ hostWrite a d s = .next (s.answer .busErr)) ∨
    (∃ loc, locate s.msgCap a = some loc ∧ loc.droppedWhileBusy = true ∧ s.status.state = .busy ∧
      hostWrite a d s = .next (dropWrite (s.answer .ok))) ∨
    (∃ loc, locate s.msgCap a = some loc ∧ (loc.droppedWhileBusy = true → s.status.state ≠ .busy) ∧
      hostWrite a d s = writeLocation d (s.answer .ok) loc) := by
  unfold hostWrite
  cases h : locate s.msgCap a with
  | none => exact .inl ⟨rfl, rfl⟩
  | some loc =>
    by_cases hd : loc.droppedWhileBusy = true
    · by_cases hb : s.status.state = .busy
      · exact .inr (.inl ⟨loc, rfl, hd, hb, by simp [hd, hb, State.isBusy]⟩)
      · exact .inr (.inr ⟨loc, rfl, fun _ => hb, by simp [hb, State.isBusy]⟩)
    · exact .inr (.inr ⟨loc, rfl, fun h => absurd h hd, by simp [hd]⟩)

/-- A write that is not dropped. -/
theorem hostWrite_taken {a : Addr} {d : Byte} {s : State} {loc : Location} (h : locate s.msgCap a = some loc)
    (hb : s.status.state ≠ .busy ∨ loc.droppedWhileBusy = false) :
    hostWrite a d s = writeLocation d (s.answer .ok) loc := by
  unfold hostWrite
  rw [h]
  rcases hb with hb | hb <;> simp [hb, State.isBusy]

/-- Everything a write to CMD can do while not BUSY: ConfigurationError, or the acceptance of the decoded command. -/
theorem writeCommand_cases (c : Byte) {s : State} (hb : s.status.state ≠ .busy) :
    (decode c = none ∧ writeCommand c s = .next (acceptIllegal c s)) ∨
    (∃ i, decode c = some i ∧ writeCommand c s = accept i s) := by
  unfold writeCommand
  cases decode c with
  | none => exact .inl ⟨rfl, rfl⟩
  | some i => exact .inr ⟨i, rfl, exec_of_not_busy i hb⟩

/-! ### Reads -/

/-- Everything a read can do: only the answer and the count of draws move. -/
theorem hostRead_cases (a : Addr) (s : State) :
    (∃ r, hostRead a s = s.answer r) ∨ (s.status.state = .busy ∧ hostRead a s = answerUnspec s) := by
  unfold hostRead
  split
  · exact .inl ⟨_, rfl⟩
  · split
    · next h => exact .inr ⟨by simpa [State.isBusy] using (Bool.and_eq_true_iff.1 h).2, rfl⟩
    · exact .inl ⟨_, rfl⟩

/-- A read that answers with the register: outside a BUSY period, or of a location that is no result. -/
theorem hostRead_register {a : Addr} {s : State} {loc : Location} (h : locate s.msgCap a = some loc)
    (hb : s.status.state ≠ .busy ∨ loc.isResult = false) : hostRead a s = s.answer (.data (readLocation s loc)) := by
  unfold hostRead
  rw [h]
  rcases hb with hb | hb <;> simp [hb, State.isBusy]

theorem hostRead_kept (a : Addr) (s : State) : ∃ r n, hostRead a s = { s with reply := some r, drawn := n } ∧ s.drawn ≤ n := by
  rcases hostRead_cases a s with ⟨r, h⟩ | ⟨-, h⟩
  · exact ⟨r, s.drawn, h, Nat.le_refl _⟩
  · exact ⟨_, _, h, Nat.le_succ _⟩

/-! ### Steps, event by event -/

theorem step_rd {s : State} {a : Addr} {rest : List Event} (h : s.events = .rd a :: rest) :
    step s = .next (hostRead a { s with events := rest }) := by
  rw [step, runNext, h]
  rfl

theorem step_wr {s : State} {a : Addr} {d : Byte} {rest : List Event} (h : s.events = .wr a d :: rest) :
    step s = hostWrite a d { s with events := rest } := by
  rw [step, runNext, h]
  rfl

theorem step_engine {s : State} {rest : List Event} (h : s.events = .engine :: rest) :
    step s = engineTurn { s with events := rest } := by
  rw [step, runNext, h]
  rfl

theorem step_reset {s : State} {rest : List Event} (h : s.events = .reset :: rest) :
    step s = .next (resetMachine { s with events := rest }) := by
  rw [step, runNext, h]
  rfl

theorem step_nil {s : State} (h : s.events = []) : step s = engineTurn s := by
  rw [step, runNext, h]

/-- A write to CMD while not BUSY. -/
theorem step_cmd {s : State} {c : Byte} {rest : List Event} (h : s.events = .wr 0x0018#16 c :: rest)
    (hs : s.status.state ≠ .busy) : step s = writeCommand c { s with events := rest, reply := some .ok } := by
  have hl : locate s.msgCap 0x0018#16 = some .cmd := (locate_eq_some (msgCap_le_window s)).2 ⟨rfl, trivial⟩
  rw [step_wr h]
  exact hostWrite_taken (s := { s with events := rest }) hl (.inl hs)

/-- The ENGINE's turn, scheduled or not. -/
theorem step_turn {s : State} {rest : List Event} (h : s.events = .engine :: rest ∨ (s.events = [] ∧ rest = [])) :
    step s = engineTurn { s with events := rest } := by
  rcases h with h | ⟨h, rfl⟩
  · exact step_engine h
  · rw [step_nil h, ← h]

theorem engineTurn_idle {s : State} (h : s.status.state ≠ .busy) : engineTurn s = .next s := by
  simp [engineTurn, State.isBusy, h]

theorem engineTurn_busy {s : State} {i : Instr} (h : s.status.state = .busy) (hi : decode s.opc = some i) :
    engineTurn s = exec i s := by
  simp [engineTurn, State.isBusy, h, hi]

/-- An ENGINE turn that goes on: nothing while not BUSY, else the chunks and a finish. -/
theorem engineTurn_next {s t : State} (h : engineTurn s = .next t) :
    (s.status.state ≠ .busy ∧ t = s) ∨
    (s.status.state = .busy ∧ ∃ u, ChunkKept s u ∧ ((∃ n, t = finishDone n u) ∨ t = raiseError .padding u)) := by
  by_cases hb : s.status.state = .busy
  · refine .inr ⟨hb, ?_⟩
    cases hi : decode s.opc with
    | none => simp [engineTurn, State.isBusy, hb, hi] at h
    | some i =>
      rw [engineTurn_busy hb hi] at h
      exact exec_busy_next (by simp [State.isBusy, hb]) h
  · rw [engineTurn_idle hb] at h
    cases h
    exact .inl ⟨hb, rfl⟩

/-- The kinds of step. -/
theorem step_kinds (s : State) :
    (∃ rest, (s.events = .engine :: rest ∨ (s.events = [] ∧ rest = [])) ∧ step s = engineTurn { s with events := rest }) ∨
    (∃ a rest, s.events = .rd a :: rest ∧ step s = .next (hostRead a { s with events := rest })) ∨
    (∃ a d rest, s.events = .wr a d :: rest ∧ step s = hostWrite a d { s with events := rest }) ∨
    (∃ rest, s.events = .reset :: rest ∧ step s = .next (resetMachine { s with events := rest })) := by
  cases h : s.events with
  | nil => exact .inl ⟨[], .inr ⟨rfl, rfl⟩, step_turn (.inr ⟨h, rfl⟩)⟩
  | cons e rest =>
    cases e with
    | rd a => exact .inr (.inl ⟨a, rest, rfl, step_rd h⟩)
    | wr a d => exact .inr (.inr (.inl ⟨a, d, rest, rfl, step_wr h⟩))
    | engine => exact .inl ⟨rest, .inl rfl, step_engine h⟩
    | reset => exact .inr (.inr (.inr ⟨rest, rfl, step_reset h⟩))

/-! ### Runs -/

/-- A run whose first step goes on. -/
theorem run_succ_of_next {M : Host.Core} {n : Nat} {s t : M.State} (h : M.step s = .next t) :
    M.run (n + 1) s = M.run n t := by
  simp only [Host.Core.run, h]

/-- A run that goes on, and one more step. -/
theorem run_succ {M : Host.Core} {n : Nat} {s t : M.State} (h : M.run n s = .next t) : M.run (n + 1) s = M.step t := by
  induction n generalizing s with
  | zero =>
    cases h
    simp only [Host.Core.run]
    cases M.step t <;> rfl
  | succ n ih =>
    cases hs : M.step s with
    | next u =>
      rw [run_succ_of_next hs] at h ⊢
      exact ih h
    | fault e => simp [Host.Core.run, hs] at h
    | refused e => simp [Host.Core.run, hs] at h

end Sys2Proof.Machine
end

