-- ==== Sys2Proof/Laws/PerInstr.lean ====
section
/-! SUPPORT. What holds of every command as syntax, proved constructor by constructor. -/

namespace Sys2Proof.Laws.RoundTrip

/-- The command is well-formed, its byte has its fields (30_encoding.md R60, R68), and the byte decodes to it (R69). -/
def Statement (i : Instr) : Prop :=
  i.wellFormed = true ∧ fieldsOf (encode i) = i.fields ∧ decode (encode i) = some i

theorem encEcb (skip iv : Bool) : Statement (.encEcb skip iv) := by
  cases skip <;> cases iv <;> exact ⟨by decide, by decide, by decide⟩

theorem encCbc (skip iv : Bool) : Statement (.encCbc skip iv) := by
  cases skip <;> cases iv <;> exact ⟨by decide, by decide, by decide⟩

theorem decEcb (skip iv : Bool) : Statement (.decEcb skip iv) := by
  cases skip <;> cases iv <;> exact ⟨by decide, by decide, by decide⟩

theorem decCbc (skip iv : Bool) : Statement (.decCbc skip iv) := by
  cases skip <;> cases iv <;> exact ⟨by decide, by decide, by decide⟩

theorem encb : Statement .encb := ⟨by decide, by decide, by decide⟩

theorem decb : Statement .decb := ⟨by decide, by decide, by decide⟩

end Sys2Proof.Laws.RoundTrip
end

