-- ==== Sys2Proof/Machine/HostNotation.lean ====
section
/-! DEFINITION. The host program notation (30_encoding.md R73) and the host sequence of a source call (R74), as lists of
host transactions. Control flow belongs to the host (R73): POLL is here with a given number of reads, and quoted text is
given as its bytes. -/

namespace Sys2Proof.Machine

/-- The symbolic address `KEY` (R73), and so on below. -/
def addrKey : Addr := 0x0000#16
def addrIv : Addr := 0x0010#16
def addrCmd : Addr := 0x0018#16
def addrStatus : Addr := 0x0019#16
def addrIrqEn : Addr := 0x001A#16
def addrInLen : Addr := 0x001C#16
def addrOutLen : Addr := 0x0020#16
def addrIn : Addr := 0x4000#16
def addrOut : Addr := 0x8000#16

/-- `WRB a, [d0, ..., dk]`. -/
def hostWrb (a : Addr) : List Byte → List Event
  | [] => []
  | d :: ds => .wr a d :: hostWrb (a + 1) ds

/-- `WRLEN n`. -/
def hostWrlen (n : Word) : List Event :=
  [.wr 0x001C#16 (byteOfWord n 0), .wr 0x001D#16 (byteOfWord n 1), .wr 0x001E#16 (byteOfWord n 2),
   .wr 0x001F#16 (byteOfWord n 3)]

/-- `CMD m`. -/
def hostCmd (i : Instr) : List Event := [.wr addrCmd (encode i)]

/-- `ACK`. -/
def hostAck : List Event := [.wr addrStatus 0x00#8]

/-- `POLL`, with `k` reads of STATUS. -/
def hostPoll (k : Nat) : List Event := List.replicate k (.rd addrStatus)

/-- `RDB a, n`. -/
def hostRdb (a : Addr) : Nat → List Event
  | 0 => []
  | n + 1 => .rd a :: hostRdb (a + 1) n

/-- `RDLEN`. -/
def hostRdlen : List Event := hostRdb addrOutLen 4

/-- The writes of the host sequence of R74, up to and with the CMD write: the IV only where it is supplied. -/
def hostCall (i : Instr) (key iv msg : List Byte) : List Event :=
  hostWrb addrKey key ++ (if ivSuppliedOf i then hostWrb addrIv iv else []) ++ hostWrb addrIn msg
    ++ hostWrlen (BitVec.ofNat 32 msg.length) ++ hostCmd i

end Sys2Proof.Machine
end

