-- ==== Sys2Proof/Tests/Slice0.lean ====
section
/-! SUPPORT. Tests: the WellFormed smoke, command bytes written out bit by bit, the vectors of 95_test_vectors.md, and for
every statement with hypotheses a concrete state and operands that meet them. Expected values come from the spec. -/

open Sys2Proof Sys2Proof.Machine

namespace Sys2Proof.Tests

/-! ### Small states -/

/-- Bytes at rising indices from `a`. -/
def bytesFrom (a : Nat) : List Byte → Memory
  | [] => []
  | b :: bs => (a, b) :: bytesFrom (a + 1) bs

/-- "super secret key". -/
def testKey : Vector Byte 16 :=
  #v[0x73, 0x75, 0x70, 0x65, 0x72, 0x20, 0x73, 0x65, 0x63, 0x72, 0x65, 0x74, 0x20, 0x6b, 0x65, 0x79]

/-- "iv_value". -/
def testIv : Vector Byte 8 := #v[0x69, 0x76, 0x5f, 0x76, 0x61, 0x6c, 0x75, 0x65]

/-- "test vector 1". -/
def testText : List Byte := [0x74, 0x65, 0x73, 0x74, 0x20, 0x76, 0x65, 0x63, 0x74, 0x6f, 0x72, 0x20, 0x31]

/-- IDLE, MSG_CAP = 4096, KEY = "super secret key", IV = "iv_value", the message in IN and its length in IN_LEN. -/
def ready (msg : List Byte) : State :=
  { State.cleared 511 0 [] with
    key := testKey, iv := testIv, inMem := bytesFrom 0 msg, inLen := BitVec.ofNat 32 msg.length }

/-- IDLE with any IN_LEN, nothing known of IN. -/
def withLength (n : Word) : State := { State.cleared 511 0 [] with inLen := n }

/-- The state a result goes on in. -/
def stateOr (s : State) : Result → State
  | .next t => t
  | .fault _ => s
  | .refused _ => s

/-- BUSY with `i` on a message. -/
def started (i : Instr) (msg : List Byte) : State := stateOr (ready msg) (exec i (ready msg))

/-- With the schedule `es`. -/
def scheduled (es : List Event) (s : State) : State := { s with events := es }

/-- With another STATE and ERR. -/
def inState (st : EngineState) (e : ErrorCause) (s : State) : State := { s with status := ⟨st, e, false⟩ }

/-- The OUT bytes, OUT_LEN and the STATUS byte of a next state. -/
def resultOf : Result → Option (List Byte × Nat × Byte)
  | .next t => some (t.outMem.map (·.2), t.outLen.toNat, t.status.byte)
  | .fault _ => none
  | .refused _ => none

/-- The STATUS byte and the answer of a next state. -/
def statusAndReply : Result → Option (Byte × Option Reply)
  | .next t => some (t.status.byte, t.reply)
  | .fault _ => none
  | .refused _ => none

/-! ### WellFormed refuses (30_encoding.md R62, R65, R66) -/

theorem test_reserved_bits_refused : Fields.wellFormed ⟨0b00, 0b00, false, false, 0b01⟩ = false := by decide

theorem test_undefined_mode_refused : Fields.wellFormed ⟨0b01, 0b10, false, false, 0b00⟩ = false := by decide

theorem test_block_mode_refused : Fields.wellFormed ⟨0b10, 0b01, false, false, 0b00⟩ = false := by decide

theorem test_block_skip_refused : Fields.wellFormed ⟨0b10, 0b00, true, false, 0b00⟩ = false := by decide

theorem test_block_iven_refused : Fields.wellFormed ⟨0b11, 0b00, false, true, 0b00⟩ = false := by decide

theorem test_well_formed_accepted : Fields.wellFormed ⟨0b00, 0b01, true, true, 0b00⟩ = true := by decide

/-! ### Decoding, bit by bit: `R R I S M M O O` (30_encoding.md R60, R68; E1 to E7 of 95_test_vectors.md) -/

theorem test_decode_encEcb : decode 0b00010000#8 = some (.encEcb true false) := by decide

theorem test_decode_encCbc : decode 0b00100100#8 = some (.encCbc false true) := by decide

theorem test_decode_decEcb : decode 0b00100001#8 = some (.decEcb false true) := by decide

theorem test_decode_decCbc : decode 0b00010101#8 = some (.decCbc true false) := by decide

theorem test_decode_encb : decode 0b00000010#8 = some .encb := by decide

theorem test_decode_decb : decode 0b00000011#8 = some .decb := by decide

theorem test_decode_illegal :
    [0x40#8, 0x80#8, 0x08#8, 0x0D#8, 0x12#8, 0x06#8, 0x23#8, 0x0B#8].map decode = List.replicate 8 none := by decide

theorem test_table_word : decodeTableWord 8 0x35 = some (.decCbc true true) ∧ decodeTableWord 8 0x4C = none := by decide

theorem test_spelling : spelling (.decCbc true true) = "DEC.CBC.SKIP.IV" ∧ assemble "ENC.ECB.IV.SKIP" = none := by decide

/-- `step` runs the fetched command first after reset: with IN_LEN = 0, ENC.ECB starts and ENCB is a BoundsError. -/
theorem test_fetch_after_reset :
    statusAndReply (step (State.reset.withFetchWord 8 0x00)) = some (0x01, some .ok) ∧
    statusAndReply (step (State.reset.withFetchWord 8 0x02)) = some (0x0F, some .ok) := ⟨rfl, rfl⟩

/-! ### The word codec and the engine (W1, W7, F5, F6, F8, F9, F11) -/

theorem test_W1 : keyWordsOf (ready []) = some #v[0x73757065, 0x72207365, 0x63726574, 0x206b6579] := by decide

theorem test_W7 : wordsToBytes 24 [0x71b5b21e, 0xc4286b88] [] 0 =
    some (bytesFrom 0 [0x71, 0xb5, 0xb2, 0x1e, 0xc4, 0x28, 0x6b, 0x88]) := by decide

theorem test_F5 : mix 0x12345678 = 0x36091BAB := by decide

theorem test_F6 : encipherRounds #v[0x73757065, 0x72207365, 0x63726574, 0x206b6579] ⟨0x74657374, 0x20766563⟩ 1 =
    ⟨0xca0ead8f, 0xeee1e97c, 0x9e3779b9, 1⟩ := by decide

theorem test_F8 : encipherBlock (Vector.replicate 4 0) ⟨0, 0⟩ = ⟨0xdee9d4d8, 0xf7131ed9⟩ := by decide +kernel

theorem test_F9 : decipherBlock (Vector.replicate 4 0xffffffff) ⟨0xffffffff, 0xffffffff⟩ = ⟨0xf3fcc7ef, 0xe11d66e5⟩ := by
  decide +kernel

theorem test_F11 : decipherBlock #v[0x00010203, 0x04050607, 0x08090a0b, 0x0c0d0e0f] ⟨0x01234567, 0x89abcdef⟩ =
    ⟨0x6f8bbb28, 0x366543a1⟩ := by decide +kernel

/-! ### The commands: one complete step each, at most two per command -/

/-- S1. -/
theorem test_S1 : resultOf (exec (.encEcb false false) (started (.encEcb false false) testText)) = some
    ([0xdf, 0x53, 0x94, 0xfc, 0xf3, 0x57, 0xbf, 0xe2, 0x74, 0xfc, 0x79, 0x10, 0x9a, 0x35, 0x70, 0xcb], 16, 0x02) := by
  decide +kernel

/-- PD2: an empty message with SKIP writes nothing. -/
theorem test_PD2 : resultOf (exec (.encEcb true false) (started (.encEcb true false) [])) = some ([], 0, 0x02) := by
  decide +kernel

/-- S4. -/
theorem test_S4 : resultOf (exec (.encCbc false true) (started (.encCbc false true) testText)) = some
    ([0x7d, 0xc6, 0x17, 0xb4, 0xe6, 0xff, 0xa9, 0xd6, 0xdd, 0x05, 0x25, 0x66, 0x76, 0x52, 0x5c, 0xdc], 16, 0x02) := by
  decide +kernel

/-- S5: no IV supplied, so the IV register is not used. -/
theorem test_S5 : resultOf (exec (.encCbc true false) (started (.encCbc true false) (List.replicate 16 0x30))) = some
    ([0x71, 0xb5, 0xb2, 0x1e, 0xc4, 0x28, 0x6b, 0x88, 0x92, 0x0e, 0xfa, 0x7c, 0xef, 0xa8, 0xb0, 0x58], 16, 0x02) := by
  decide +kernel

/-- ST2: nine bytes stripped, across a block. -/
theorem test_ST2 : resultOf (exec (.decEcb false false) (started (.decEcb false false)
    [0x71, 0xb5, 0xb2, 0x1e, 0xc4, 0x28, 0x6b, 0x88, 0x24, 0x27, 0x4c, 0x00, 0x8a, 0x04, 0x90, 0xad])) = some
    (List.replicate 7 0x30, 7, 0x02) := by
  decide +kernel

/-- ST3: a last byte greater than NLEN. -/
theorem test_ST3 : resultOf (exec (.decEcb false false) (started (.decEcb false false)
    [0x8a, 0x3d, 0xf2, 0x52, 0x1f, 0xdd, 0x3f, 0x60])) = some ([], 0, 0x13) := by
  decide +kernel

/-- C7. -/
theorem test_C7 : resultOf (exec (.decCbc false true) (started (.decCbc false true)
    [0x7d, 0xc6, 0x17, 0xb4, 0xe6, 0xff, 0xa9, 0xd6, 0xdd, 0x05, 0x25, 0x66, 0x76, 0x52, 0x5c, 0xdc])) = some
    (testText, 13, 0x02) := by
  decide +kernel

/-- C8. -/
theorem test_C8 : resultOf (exec (.decCbc true false) (started (.decCbc true false)
    [0x71, 0xb5, 0xb2, 0x1e, 0xc4, 0x28, 0x6b, 0x88, 0x92, 0x0e, 0xfa, 0x7c, 0xef, 0xa8, 0xb0, 0x58])) = some
    (List.replicate 16 0x30, 16, 0x02) := by
  decide +kernel

/-- C10. -/
theorem test_C10 : resultOf (exec .encb (started .encb [0x41, 0x42, 0x43, 0x44, 0x45, 0x46, 0x47, 0x48])) = some
    ([0x94, 0xcb, 0x1b, 0x4e, 0x80, 0x44, 0x15, 0x13], 8, 0x02) := by
  decide +kernel

/-- C12: DECB strips nothing. -/
theorem test_C12 : resultOf (exec .decb (started .decb [0x80, 0x87, 0x5c, 0x71, 0xc9, 0xff, 0xd1, 0x29])) = some
    ([0x30, 0x30, 0x30, 0x30, 0x30, 0x30, 0x30, 0x08], 8, 0x02) := by
  decide +kernel

/-! ### Errors, the bus and STATUS -/

/-- E10, E18, E20, E21, E22: the byte, IN_LEN and the STATUS byte. -/
theorem test_acceptance_errors :
    [(0x00#8, 4097#32), (0x0B#8, 5#32), (0x01#8, 0x00010001#32), (0x14#8, 14#32), (0x02#8, 0xFFFFFFFF#32)].map
      (fun p => statusAndReply (step (scheduled [.wr 0x0018 p.1] (withLength p.2)))) =
    [0x0F#8, 0x07#8, 0x0F#8, 0x0B#8, 0x0F#8].map fun b => some (b, some .ok) := by decide +kernel

/-- B1, B2, B4, B5: the answers, STATUS unchanged. -/
theorem test_bus_answers :
    [Event.rd 0x001B, .wr 0xC000 0x55, .wr 0x8000 0x55, .wr 0x0020 0x55].map
      (fun e => statusAndReply (step (scheduled [e] (ready [])))) =
    [Reply.busErr, .busErr, .ok, .ok].map fun r => some (0x00#8, some r) := by decide +kernel

/-- B7: the reserved bits of IRQ_EN. -/
theorem test_B7 : statusAndReply (step (scheduled [.rd 0x001A]
    (stateOr (ready []) (step (scheduled [.wr 0x001A 0xFF] (ready [])))))) = some (0x00, some (.data 0x01)) := by
  decide +kernel

/-- Q7: a write to KEY while BUSY. -/
theorem test_Q7 : statusAndReply (step (scheduled [.wr 0x0000 0x00] (started (.encEcb false false) testText))) =
    some (0x21, some .ok) := by decide +kernel

/-- Big-endian IN_LEN (10_state.md R21). -/
theorem test_inLen_byte : setByteOfWord 0x00000000 3 0x0D = 13#32 ∧ setByteOfWord 0x0000000D 0 0x01 = 0x0100000D#32 := by
  decide

/-- The host sequence of R74 for an encryption without IV: 16 key bytes, the message, four length bytes and the command. -/
theorem test_host_call : (hostCall (.encEcb false false) testKey.toList testIv.toList testText).length = 34 ∧
    (hostCall (.encCbc false true) testKey.toList testIv.toList testText).getLast? = some (.wr 0x0018 0x24) := by
  decide +kernel

/-! ### Witnesses: accepted commands -/

/-- A machine that is BUSY with a command is accepted when what can be computed of it holds. -/
theorem accepted_of {i : Instr} {s : State} (h1 : s.status.state = .busy ∧ s.status.err = .none)
    (h2 : s.cmd = encode i ∧ s.opc = encode i) (hb : BoundsOk i s) (ha : AlignOk i s) (hk : keyWordsOf s = some s.kw)
    (hc : initialChain i s = some s.chain) (hn : s.nlen = s.inLen.toNat)
    (hp : s.padn = padCount i s.nlen ∧ s.nblk = (s.nlen + s.padn) / 8 ∧ s.blk = 0) (ho : s.outLen = 0 ∧ s.outMem = []) :
    Accepted i s :=
  ⟨h1.1, h1.2, h2.1, h2.2, hb, ha, hk, fun _ => hc, hn, hp.1, hp.2.1, hp.2.2, ho.1, ho.2⟩

/-- For the statements with the hypothesis `Accepted`: every command, with and without SKIP. -/
theorem witness_accepted_encEcb (skip : Bool) :
    Accepted (.encEcb skip true) (started (.encEcb skip true) (List.replicate 16 0x30)) := by
  cases skip <;> exact accepted_of (by decide +kernel) (by decide +kernel)
    ⟨by decide +kernel, by decide +kernel⟩ ⟨by decide +kernel, by decide +kernel⟩
    (by decide +kernel) (by decide +kernel) (by decide +kernel) (by decide +kernel) (by decide +kernel)

theorem witness_accepted_encCbc (skip : Bool) :
    Accepted (.encCbc skip true) (started (.encCbc skip true) (List.replicate 16 0x30)) := by
  cases skip <;> exact accepted_of (by decide +kernel) (by decide +kernel)
    ⟨by decide +kernel, by decide +kernel⟩ ⟨by decide +kernel, by decide +kernel⟩
    (by decide +kernel) (by decide +kernel) (by decide +kernel) (by decide +kernel) (by decide +kernel)

/-- ST6's and ST3's ciphertexts: a count that can be stripped, and one that cannot. -/
def good : List Byte := [0x26, 0x7a, 0x2c, 0x3b, 0x1c, 0x15, 0xd3, 0xc5]
def bad : List Byte := [0x8a, 0x3d, 0xf2, 0x52, 0x1f, 0xdd, 0x3f, 0x60]

theorem witness_accepted_decEcb (skip : Bool) (msg : List Byte) (h : msg = [] ∨ msg = good ∨ msg = bad) :
    Accepted (.decEcb skip false) (started (.decEcb skip false) msg) := by
  rcases h with rfl | rfl | rfl <;> cases skip <;> exact accepted_of (by decide +kernel) (by decide +kernel)
    ⟨by decide +kernel, by decide +kernel⟩ ⟨by decide +kernel, by decide +kernel⟩
    (by decide +kernel) (by decide +kernel) (by decide +kernel) (by decide +kernel) (by decide +kernel)

theorem witness_accepted_decCbc (skip : Bool) (msg : List Byte) (h : msg = [] ∨ msg = good ∨ msg = bad) :
    Accepted (.decCbc skip false) (started (.decCbc skip false) msg) := by
  rcases h with rfl | rfl | rfl <;> cases skip <;> exact accepted_of (by decide +kernel) (by decide +kernel)
    ⟨by decide +kernel, by decide +kernel⟩ ⟨by decide +kernel, by decide +kernel⟩
    (by decide +kernel) (by decide +kernel) (by decide +kernel) (by decide +kernel) (by decide +kernel)

theorem witness_accepted_encb : Accepted .encb (started .encb good) :=
  accepted_of (by decide +kernel) (by decide +kernel) ⟨by decide +kernel, by decide +kernel⟩
    ⟨by decide +kernel, by decide +kernel⟩ (by decide +kernel) (by decide +kernel) (by decide +kernel) (by decide +kernel)
    (by decide +kernel)

theorem witness_accepted_decb : Accepted .decb (started .decb good) :=
  accepted_of (by decide +kernel) (by decide +kernel) ⟨by decide +kernel, by decide +kernel⟩
    ⟨by decide +kernel, by decide +kernel⟩ (by decide +kernel) (by decide +kernel) (by decide +kernel) (by decide +kernel)
    (by decide +kernel)

/-! ### Witnesses, statement by statement: states and operands that meet all hypotheses of a clause together -/

theorem witness_EncodeAndDecodeAgree : (Instr.decCbc true true).wellFormed = true ∧ decode 0x35 = some (.decCbc true true) := by
  decide

theorem witness_SpellingsAssemble : (assemble "ENC.CBC.IV").isSome = true := by decide

theorem witness_CodecReadsAndWritesItsRange : 15 < 0 + 4 * 4 ∧ 0 + 4 * 4 ≤ 16 := by decide

theorem witness_CodecRoundTrips : testKey.toList.length = 4 * 4 := by decide

theorem witness_rounds_and_bytes : (0 ≤ 32 ∧ 32 ≤ 32) ∧ (0 < 32 ∧ 31 < 32) ∧ (0 < 8 ∧ 7 < 8) := by decide

theorem witness_CbcDecryptUndoesCbcEncrypt :
    let s := started (.encCbc false true) testText
    let t : State := { s with v := (cbcEncrypt s).v }
    t.kw = s.kw ∧ t.chain = s.chain ∧ t.v = (cbcEncrypt s).v := ⟨rfl, rfl, rfl⟩

/-- Also for LastChunkCarriesThePadding, on an aligned message. -/
theorem witness_PadCountAlwaysPads :
    let s := started (.encEcb false true) (List.replicate 16 0x30)
    Accepted (.encEcb false true) s ∧ opOf (.encEcb false true) = .encrypt ∧ skipOf (.encEcb false true) = false ∧
      s.nlen % 8 = 0 := ⟨witness_accepted_encEcb false, rfl, rfl, by decide +kernel⟩

/-- Also for InternalRegistersDoNotMatter: every command, on eight bytes. -/
theorem witness_AcceptanceStartsTheCommand (i : Instr) :
    (ready good).status.state ≠ .busy ∧ BoundsOk i (ready good) ∧ AlignOk i (ready good) := by
  refine ⟨by decide, ⟨fun _ => by decide, fun _ => by decide⟩, ⟨fun _ => by decide, fun _ _ => by decide⟩⟩

theorem witness_BadLengthRaisesBoundsError :
    (withLength 4097).status.state ≠ .busy ∧ (withLength 4097).msgCap < (withLength 4097).inLen.toNat ∧
    (withLength 9).status.state ≠ .busy ∧ (withLength 9).inLen.toNat ≠ 8 := by decide

theorem witness_MisalignedLengthRaisesAlignmentError :
    (withLength 4095).status.state ≠ .busy ∧ (withLength 4095).inLen.toNat ≤ (withLength 4095).msgCap ∧
      (withLength 4095).inLen.toNat % 8 ≠ 0 := by decide

theorem witness_IllegalByteRaisesConfigurationError :
    IllegalByte 0x40 ∧ IllegalByte 0x0D ∧ IllegalByte 0x23 ∧ (ready []).status.state ≠ .busy ∧
      (scheduled [.wr 0x0018 0x40] (ready [])).events = .wr 0x0018#16 0x40#8 :: [] := by
  unfold IllegalByte; decide

/-- One byte and length for each clause, in the order of R172, and one that passes. -/
theorem witness_ChecksAreMadeInPriorityOrder :
    decode 0x0B = none ∧
    (decode 0x01 = some (.decEcb false false) ∧ ¬ BoundsOk (.decEcb false false) (withLength 0x00010001)) ∧
    (decode 0x14 = some (.encCbc true false) ∧ BoundsOk (.encCbc true false) (withLength 14) ∧
      ¬ AlignOk (.encCbc true false) (withLength 14)) ∧
    (decode 0x00 = some (.encEcb false false) ∧ BoundsOk (.encEcb false false) (withLength 4096) ∧
      AlignOk (.encEcb false false) (withLength 4096)) := by
  unfold BoundsOk AlignOk; decide

theorem witness_SkipEncryptionAlignsOrFails :
    opOf (.encEcb true false) = .encrypt ∧ skipOf (.encEcb true false) = true ∧
    (withLength 4095).inLen.toNat ≤ (withLength 4095).msgCap ∧ (withLength 4095).inLen.toNat % 8 ≠ 0 ∧
    (withLength 4097).msgCap < (withLength 4097).inLen.toNat := by decide

/-- `MessageStarts` in the statements of ENC and DEC: too long, misaligned, and a length that passes. -/
theorem witness_MessageStarts :
    ((withLength 4097).status.state ≠ .busy ∧ (withLength 4097).msgCap < (withLength 4097).inLen.toNat) ∧
    ((withLength 4095).status.state ≠ .busy ∧ (withLength 4095).inLen.toNat ≤ (withLength 4095).msgCap ∧
      (withLength 4095).inLen.toNat % 8 ≠ 0) ∧
    ((withLength 4096).status.state ≠ .busy ∧ (withLength 4096).inLen.toNat ≤ (withLength 4096).msgCap ∧
      (withLength 4096).inLen.toNat % 8 = 0) := by decide

/-- ENCB and DECB: a length that is not 8, and one that is. -/
theorem witness_BlockCommandsComplete :
    ((withLength 7).status.state ≠ .busy ∧ (withLength 7).inLen.toNat ≠ 8) ∧
    ((withLength 8).status.state ≠ .busy ∧ (withLength 8).inLen.toNat = 8) ∧
    Accepted .encb (started .encb good) ∧ Accepted .decb (started .decb good) :=
  ⟨by decide, by decide, witness_accepted_encb, witness_accepted_decb⟩

/-- The counts of DEC.ECB, for DecEcbCompletes and StripTakesTheLastByteLiterally: one that can be stripped, one that is
greater than NLEN, and an empty message. -/
theorem witness_DecEcbCompletes :
    let last := fun s : State => (byteOfBlock (decipherBlock s.kw (inBlock s ((s.nlen - 1) / 8))) ((s.nlen - 1) % 8)).toNat
    let s := started (.decEcb false false) good
    let t := started (.decEcb false false) bad
    (Accepted (.decEcb false false) s ∧ s.nlen ≠ 0 ∧ last s ≤ s.nlen) ∧
    (Accepted (.decEcb false false) t ∧ t.nlen < last t) ∧
    (Accepted (.decEcb false false) (started (.decEcb false false) []) ∧ (started (.decEcb false false) []).nlen = 0) :=
  ⟨⟨witness_accepted_decEcb false good (.inr (.inl rfl)), by decide +kernel, by decide +kernel⟩,
    ⟨witness_accepted_decEcb false bad (.inr (.inr rfl)), by decide +kernel⟩,
    witness_accepted_decEcb false [] (.inl rfl), by decide +kernel⟩

/-- The counts of DEC.CBC, for DecCbcCompletes; with a zero chaining state they are those of DEC.ECB. -/
theorem witness_DecCbcCompletes :
    let last := fun s : State =>
      (byteOfBlock (cbcPlain s.kw s.chain (inBlock s) ((s.nlen - 1) / 8)) ((s.nlen - 1) % 8)).toNat
    let s := started (.decCbc false false) good
    let t := started (.decCbc false false) bad
    (Accepted (.decCbc false false) s ∧ s.nlen ≠ 0 ∧ last s ≤ s.nlen) ∧
    (Accepted (.decCbc false false) t ∧ t.nlen < last t) ∧
    (Accepted (.decCbc false false) (started (.decCbc false false) []) ∧ (started (.decCbc false false) []).nlen = 0) :=
  ⟨⟨witness_accepted_decCbc false good (.inr (.inl rfl)), by decide +kernel, by decide +kernel⟩,
    ⟨witness_accepted_decCbc false bad (.inr (.inr rfl)), by decide +kernel⟩,
    witness_accepted_decCbc false [] (.inl rfl), by decide +kernel⟩

/-- ENC.CBC and DEC.CBC with chunks, DEC.CBC without one, a command that is not CBC, and a machine that is not BUSY. -/
theorem witness_LastChunkLeavesChainAndRegisters :
    (Accepted (.encCbc false true) (started (.encCbc false true) (List.replicate 16 0x30)) ∧
      (started (.encCbc false true) (List.replicate 16 0x30)).nblk ≠ 0) ∧
    (Accepted (.decCbc false false) (started (.decCbc false false) good) ∧
      (started (.decCbc false false) good).nblk ≠ 0) ∧
    (Accepted (.decCbc false false) (started (.decCbc false false) []) ∧ (started (.decCbc false false) []).nblk = 0) ∧
    (Accepted .encb (started .encb good) ∧ modeOf .encb ≠ some .cbc) ∧
    (modeOf (.encCbc false true) = some .cbc ∧ (ready good).status.state ≠ .busy) :=
  ⟨⟨witness_accepted_encCbc false, by decide +kernel⟩,
    ⟨witness_accepted_decCbc false good (.inr (.inl rfl)), by decide +kernel⟩,
    ⟨witness_accepted_decCbc false [] (.inl rfl), by decide +kernel⟩, ⟨witness_accepted_encb, by decide⟩,
    by decide, by decide⟩

/-- A result that was computed is a next state. -/
theorem next_of {r : Result} {x : List Byte × Nat × Byte} (h : resultOf r = some x) : ∃ t, r = .next t := by
  cases r with
  | next t => exact ⟨t, rfl⟩
  | fault e => cases h
  | refused e => cases h

/-- ENC.ECB, both SKIP: `exec` of an accepted command goes on. The last clause is a decryption that ends in DONE. Also for
EncEcbCompletes; `witness_accepted_encCbc` is EncCbcCompletes's. -/
theorem witness_OutputLengths :
    (∀ skip, Accepted (.encEcb skip true) (started (.encEcb skip true) (List.replicate 16 0x30)) ∧
      ∃ t, exec (.encEcb skip true) (started (.encEcb skip true) (List.replicate 16 0x30)) = .next t) ∧
    resultOf (exec (.decEcb false false) (started (.decEcb false false) good)) = some (List.replicate 7 0x30, 7, 0x02) := by
  refine ⟨fun skip => ⟨witness_accepted_encEcb skip, ?_⟩, by decide +kernel⟩
  have h : (resultOf (exec (.encEcb skip true) (started (.encEcb skip true) (List.replicate 16 0x30)))).isSome = true := by
    cases skip <;> decide +kernel
  obtain ⟨x, hx⟩ := Option.isSome_iff_exists.1 h
  exact next_of hx

/-- With no IV supplied, and with an IV of zero bytes supplied. -/
theorem witness_ZeroChainStartsLikeEcb :
    (∀ iv, (withLength 5).status.state ≠ .busy ∧ (∀ j (h : j < 8), (withLength 5).iv[j] = 0x00#8) ∧
      (statusAndReply (exec (.encCbc false iv) (withLength 5))).map (·.1) = some 0x01 ∧
      (statusAndReply (exec (.encEcb false iv) (withLength 5))).map (·.1) = some 0x01) := by
  intro iv
  cases iv <;> decide +kernel

theorem witness_BlockCommandsAreEcbOnOneBlock : (ready good).status.state ≠ .busy ∧ (ready good).inLen.toNat = 8 := by
  decide

/-- The machine before and between the runs of S1's round trip: the host copied OUT to IN. -/
theorem witness_DecryptionUndoesEncryption :
    let s := ready testText
    let c := stateOr s (exec (.encEcb false false) (started (.encEcb false false) testText))
    let u : State := { s with inMem := c.outMem, inDraw := c.outDraw, inLen := c.outLen }
    s.status.state ≠ .busy ∧ s.inLen.toNat + 8 ≤ s.msgCap ∧ c.status.state = .done ∧ u.status.state ≠ .busy ∧
      u.capacity = s.capacity ∧ u.key = s.key ∧ u.iv = s.iv ∧ u.inLen = c.outLen ∧
      ∀ a, a < c.outLen.toNat → u.inByte a = c.outByte a :=
  ⟨by decide +kernel, by decide +kernel, by decide +kernel, by decide +kernel, rfl, rfl, rfl, rfl, fun _ _ => rfl⟩

theorem witness_DecryptionUndoesEncryption_skip :
    (ready good).inLen.toNat ≤ (ready good).msgCap ∧ (ready good).inLen.toNat % 8 = 0 := by decide

theorem witness_BytesBeyondTheLengthDoNotMatter :
    let s := started (.encb) good
    Accepted .encb s ∧ ∀ a, a < s.nlen → State.inByte { s with inMem := bytesFrom 0 (good ++ [0x07]), inDraw := 0 } a = s.inByte a :=
  ⟨witness_accepted_encb, by decide +kernel⟩

/-- Also for BusyPeriodEnds, without the ENGINE's turn. -/
theorem witness_HostTransactionsWhileBusyDoNotChangeTheResult :
    let between := [Event.rd 0x0019, .wr 0x0000 0xFF, .rd 0x8000, .wr 0x001A 0x01]
    let s := scheduled (between ++ .engine :: []) (started .encb good)
    let t := scheduled between (started .encb good)
    Accepted .encb s ∧ Accepted .encb t ∧ (∀ e ∈ between, e.isHost = true) ∧ s.events = between ++ .engine :: [] := by
  refine ⟨?_, ?_, by decide, rfl⟩ <;>
    exact accepted_of (by decide +kernel) (by decide +kernel) ⟨by decide +kernel, by decide +kernel⟩
      ⟨by decide +kernel, by decide +kernel⟩ (by decide +kernel) (by decide +kernel) (by decide +kernel)
      (by decide +kernel) (by decide +kernel)

theorem witness_StepRunsTheWrittenCommand :
    let s := scheduled [.wr 0x0018 0x24] (ready testText)
    s.events = .wr 0x0018#16 0x24#8 :: [] ∧ s.status.state ≠ .busy ∧ decode 0x24 = some (.encCbc false true) ∧
      (Instr.encCbc false true).wellFormed = true := ⟨rfl, by decide, by decide, by decide⟩

/-- The ENGINE's turn, scheduled or not, while BUSY and while IDLE. -/
theorem witness_StepCompletesTheAcceptedCommand :
    let busy := started .decb good
    (scheduled [.engine] busy).events = .engine :: [] ∧ busy.events = [] ∧ busy.status.state = .busy ∧
      decode busy.opc = some .decb ∧ (ready good).events = [] ∧ (ready good).status.state ≠ .busy := by decide +kernel

theorem witness_FetchWordRunsNext : decodeTableWord 8 0x24 = some (.encCbc false true) := by decide

/-- The edges of the unmapped ranges, MSG_CAP = 4096. -/
theorem witness_UnmappedAddressesAnswerBusErr :
    (ready []).msgCap = 4096 ∧ (∀ e, (scheduled [e] (ready [])).events = e :: []) ∧
    [0x001B#16, 0x0024#16, 0x3FFF#16, 0x5000#16, 0x7FFF#16, 0x9008#16, 0xFFFF#16].map (fun a => (a.toNat, locate 4096 a)) =
      [(0x001B, none), (0x0024, none), (0x3FFF, none), (0x4000 + 4096, none), (0x7FFF, none), (0x8000 + 4096 + 8, none),
        (0xFFFF, none)] :=
  ⟨by decide, fun _ => rfl, by decide⟩

/-- The edges of the mapped ranges, while IDLE: KEY, IV, CMD, STATUS, IRQ_EN, IN_LEN, IN, OUT_LEN and OUT. For
ReadsReturnTheRegisters, ReadsHaveNoSideEffects, WritesStoreTheirByte, IrqEnStoresOnlyItsBit and WritesToResultsAreIgnored. -/
theorem witness_mapped_edges :
    (ready []).status.state ≠ .busy ∧ (∀ e, (scheduled [e] (ready [])).events = e :: []) ∧
    [0x0000#16, 0x000F#16, 0x0010#16, 0x0017#16, 0x0018#16, 0x0019#16, 0x001A#16, 0x001C#16, 0x001F#16].map
      (locate (ready []).msgCap) =
      [some (.key 0), some (.key 15), some (.iv 0), some (.iv 7), some .cmd, some .status, some .irqEn, some (.inLen 0),
        some (.inLen 3)] ∧
    [0x4000#16, 0x4FFF#16, 0x0020#16, 0x0023#16, 0x8000#16, 0x9007#16].map (locate (ready []).msgCap) =
      [some (.inBuf 0), some (.inBuf 4095), some (.outLen 0), some (.outLen 3), some (.outBuf 0), some (.outBuf 4103)] :=
  ⟨by decide, fun _ => rfl, by decide, by decide⟩

/-- Reads and writes while BUSY, at the edges of the ranges of R44 and R45. For BusyReadsOfResultsAreDraws,
WritesWhileBusyAreDropped and WritesToResultsAreIgnored. -/
theorem witness_while_busy :
    (started .encb good).status.state = .busy ∧ (started .encb good).msgCap = 4096 ∧
    (∀ e, (scheduled [e] (started .encb good)).events = e :: []) ∧
    [0x0020#16, 0x0023#16, 0x8000#16, 0x9007#16].map (·.toNat) = [0x0020, 0x0024 - 1, 0x8000, 0x8000 + 4096 + 8 - 1] ∧
    [0x0000#16, 0x0019#16, 0x001C#16, 0x001F#16, 0x4000#16, 0x4FFF#16].map (·.toNat) =
      [0x0000, 0x001A - 1, 0x001C, 0x0020 - 1, 0x4000, 0x4000 + 4096 - 1] :=
  ⟨by decide +kernel, by decide +kernel, fun _ => rfl, by decide, by decide⟩

/-- Also for IrqEnStoresOnlyItsBit and ResetSetsTheResetValues. -/
theorem witness_StatusWriteAcknowledges :
    let s := inState .error .padding (ready [])
    (scheduled [.wr 0x0019 0x55] s).events = .wr 0x0019#16 0x55#8 :: [] ∧ s.status.state ≠ .busy ∧
      (scheduled [.wr 0x001A 0xFF] s).events = .wr 0x001A#16 0xFF#8 :: [] ∧
      (scheduled [.reset] s).events = .reset :: [] := by decide

/-- The four kinds of change of STATE, each by a step that goes on: the STATUS bytes before and after. -/
theorem witness_StateChangesOnlyAsListed :
    let busy := started (.decEcb false false) bad
    let done := inState .done .none (ready [])
    [scheduled [.wr 0x0018 0x00] done, scheduled [.wr 0x0018 0x40] done, scheduled [.engine] busy,
      scheduled [.wr 0x0019 0x00] done, scheduled [.reset] busy].map
      (fun s => (s.status.byte, (resultOf (step s)).map (·.2.2))) =
    [(0x02#8, some 0x01#8), (0x02, some 0x07), (0x01, some 0x13), (0x02, some 0x00), (0x01, some 0x00)] := by
  decide +kernel

/-- WDROP set, kept by the completion, and cleared (Q7, Q8, Q10). -/
theorem witness_DropFlagChangesOnlyAsListed :
    let busy := started (.encEcb false false) testText
    let dropped := stateOr busy (step (scheduled [.wr 0x0000 0x00] busy))
    let done := stateOr busy (step (scheduled [.engine] dropped))
    [busy, dropped, done, stateOr busy (step (scheduled [.wr 0x0019 0x00] done))].map (·.status.byte) =
      [0x01#8, 0x21#8, 0x22#8, 0x00#8] := by
  decide +kernel

/-- `irq` asserted, and the four ways it is cleared (Q3 to Q9); a write to KEY does not clear it. -/
theorem witness_InterruptFollowsStateAndEnable :
    let s : State := { inState .done .none (ready []) with irqEn := 0x01 }
    s.irq = true ∧
    [Event.wr 0x0019 0x00, .wr 0x0018 0x00, .wr 0x001A 0x00, .reset, .wr 0x0000 0x01].map
      (fun e => (stateOr s (step (scheduled [e] s))).irq) = [false, false, false, false, true] := by
  decide +kernel

/-- For OperandsChangeOnlyByHostWrites and ResultsStayUntilTheNextCommand: steps that go on, one for each way out. -/
theorem witness_steps_go_on :
    let busy := started .encb good
    [scheduled [.wr 0x0000 0x01] (ready []), scheduled [.wr 0x0017 0x01] (ready []), scheduled [.wr 0x0018 0x02] (ready []),
      scheduled [.wr 0x001A 0x01] busy, scheduled [.wr 0x001C 0x01] (ready []), scheduled [.wr 0x4000 0x01] (ready []),
      scheduled [.engine] busy, busy, scheduled [.reset] busy].all (fun s => (resultOf (step s)).isSome) = true := by
  decide +kernel

/-- A state that meets the invariant: everything at zero, IDLE. -/
theorem cleared_inv (es : List Event) : (State.cleared 511 0 es).Inv where
  inWf := rfl
  outWf := rfl
  inRange := fun _ h => by cases h
  outRange := fun a => iff_of_false (by simp [State.cleared]) (by simp [State.cleared])
  outFits := by simp [State.cleared]
  errIffError := by simp [State.cleared]
  idleNoDrop := fun _ => rfl
  earlyErrorNoDrop := fun h => by cases h
  configurationIff := fun h => by cases h
  doneLegal := fun h => by cases h
  errorNoOutput := fun h => by cases h
  irqReserved := by simp [State.cleared]
  rndRange := Nat.zero_le _
  nlenRange := Nat.zero_le _
  padnRange := Nat.zero_le _
  blkRange := Nat.zero_le _
  nblkRange := Nat.zero_le _
  busyAccepted := fun h => by cases h
  drawsMade := by simp [State.cleared]

/-- For StepKeepsTheInvariant, OnlyTenStatusBytesOccur and InvariantStatesNeverStop. -/
theorem witness_StepKeepsTheInvariant :
    (State.cleared 511 0 [.wr 0x0018 0x00]).Inv ∧ ∃ t, step (State.cleared 511 0 [.wr 0x0018 0x00]) = .next t :=
  ⟨cleared_inv _, next_of (x := ([], 0, 0x01)) (by decide +kernel)⟩

end Sys2Proof.Tests
end

/-! PROOF. The statements about the host-visible registers of 10_state.md: what a step can be, what it does to STATUS, and
which host writes change an operand register. -/

namespace Sys2Proof.Machine

/-! ### What a step can be -/

/-- Everything a step of `s` that goes on to `t` can be (00_scope.md R5, 20_memory.md R41 to R45), with the event that
was scheduled. -/
inductive StepCase (s t : State) : Prop
  /-- The ENGINE's turn while not BUSY. -/
  | idleTurn (rest : List Event) (he : s.events = .engine :: rest ∨ (s.events = [] ∧ rest = []))
      (hb : s.status.state ≠ .busy) (ht : t = { s with events := rest })
  /-- The complete step: the chunks end in `u`, and the finish is DONE or a PaddingError. -/
  | completion (rest : List Event) (u : State) (he : s.events = .engine :: rest ∨ (s.events = [] ∧ rest = []))
      (hb : s.status.state = .busy) (hu : ChunkKept { s with events := rest } u)
      (ht : (∃ n, t = finishDone n u) ∨ t = raiseError .padding u)
  /-- A read. -/
  | read (a : Addr) (rest : List Event) (r : Reply) (n : Nat) (he : s.events = .rd a :: rest)
      (ht : t = { s with events := rest, reply := some r, drawn := n })
  /-- A write to an unmapped address. -/
  | busErr (a : Addr) (d : Byte) (rest : List Event) (he : s.events = .wr a d :: rest) (hl : locate s.msgCap a = none)
      (ht : t = { s with events := rest, reply := some .busErr })
  /-- A write dropped while BUSY. -/
  | dropped (a : Addr) (d : Byte) (rest : List Event) (loc : Location) (he : s.events = .wr a d :: rest)
      (hl : locate s.msgCap a = some loc) (hd : loc.droppedWhileBusy = true) (hb : s.status.state = .busy)
      (ht : t = dropWrite { s with events := rest, reply := some .ok })
  /-- A write that takes effect. -/
  | taken (a : Addr) (d : Byte) (rest : List Event) (loc : Location) (he : s.events = .wr a d :: rest)
      (hl : locate s.msgCap a = some loc) (hb : loc.droppedWhileBusy = true → s.status.state ≠ .busy)
      (ht : writeLocation d { s with events := rest, reply := some .ok } loc = .next t)
  /-- RESET. -/
  | reset (rest : List Event) (he : s.events = .reset :: rest) (ht : t = resetMachine { s with events := rest })

/-- A host write that goes on is one of the three kinds of write. -/
theorem stepCase_of_hostWrite {s t : State} {a : Addr} {d : Byte} {rest : List Event} (he : s.events = .wr a d :: rest)
    (h : hostWrite a d { s with events := rest } = .next t) : StepCase s t := by
  rcases hostWrite_cases a d { s with events := rest } with
    ⟨hl, hw⟩ | ⟨loc, hl, hd, hb, hw⟩ | ⟨loc, hl, hb, hw⟩
  · cases hw.symm.trans h
    exact .busErr a d rest he hl rfl
  · cases hw.symm.trans h
    exact .dropped a d rest loc he hl hd hb rfl
  · exact .taken a d rest loc he hl hb (hw.symm.trans h)

theorem step_next_cases {s t : State} (h : step s = .next t) : StepCase s t := by
  rcases step_kinds s with ⟨rest, he, hs⟩ | ⟨a, rest, he, hs⟩ | ⟨a, d, rest, he, hs⟩ | ⟨rest, he, hs⟩
  · rcases engineTurn_next (hs.symm.trans h) with ⟨hb, ht⟩ | ⟨hb, u, hu, ht⟩
    · exact .idleTurn rest he hb ht
    · exact .completion rest u he hb hu ht
  · obtain ⟨r, n, hr, -⟩ := hostRead_kept a { s with events := rest }
    cases hs.symm.trans h
    exact .read a rest r n he hr
  · exact stepCase_of_hostWrite he (hs.symm.trans h)
  · cases hs.symm.trans h
    exact .reset rest he rfl

/-! ### The addresses of CMD, STATUS and IRQ_EN -/

theorem locate_eq_cmd {s : State} {a : Addr} : locate s.msgCap a = some .cmd ↔ a = 0x0018#16 := by
  rw [locate_eq_some (msgCap_le_window s), ← BitVec.toNat_inj]
  exact and_iff_left trivial

theorem locate_eq_status {s : State} {a : Addr} : locate s.msgCap a = some .status ↔ a = 0x0019#16 := by
  rw [locate_eq_some (msgCap_le_window s), ← BitVec.toNat_inj]
  exact and_iff_left trivial

theorem locate_eq_irqEn {s : State} {a : Addr} : locate s.msgCap a = some .irqEn ↔ a = 0x001A#16 := by
  rw [locate_eq_some (msgCap_le_window s), ← BitVec.toNat_inj]
  exact and_iff_left trivial

/-- A write to such a location while BUSY is dropped. -/
theorem hostWrite_dropped {a : Addr} {d : Byte} {s : State} {loc : Location} (hl : locate s.msgCap a = some loc)
    (hd : loc.droppedWhileBusy = true) (hb : s.status.state = .busy) :
    hostWrite a d s = .next (dropWrite (s.answer .ok)) := by
  simp [hostWrite, hl, hd, State.isBusy, hb]

/-- Settles O48: STATUS is the location at 0x0019, and its write is the acknowledge. -/
theorem statusWriteAcknowledges : Obligations.StatusWriteAcknowledges := by
  intro s rest
  have hl : locate s.msgCap 0x0019#16 = some .status := locate_eq_status.2 rfl
  refine ⟨fun d he => ⟨fun hb => ?_, fun hb => ?_⟩, fun he => ?_⟩
  · rw [step_wr he, hostWrite_taken (s := { s with events := rest }) hl (.inl hb)]
    rfl
  · rw [step_wr he, hostWrite_dropped (s := { s with events := rest }) hl rfl hb, ← hb]
    rfl
  · rw [step_rd he, hostRead_register (s := { s with events := rest }) hl (.inr rfl)]
    rfl

/-! ### What a write to CMD leaves -/

theorem initCommand_status {i : Instr} {n : Nat} {s t : State} (h : initCommand i n s = some t) :
    t.status = { s.status with state := .busy } := by
  unfold initCommand at h
  split at h
  · cases h; rfl
  · cases h

/-- The byte written to CMD is a command whose checks pass (43_block_driver.md R132 to R134). -/
def ChecksPass (c : Byte) (s : State) : Prop := ∃ i, decode c = some i ∧ BoundsOk i s ∧ AlignOk i s

/-- A write to CMD while not BUSY: BUSY where the checks pass, ERROR where they do not, WDROP clear (R130, R171), and no
operand written. -/
theorem writeCommand_next {c : Byte} {s t : State} (hb : s.status.state ≠ .busy) (h : writeCommand c s = .next t) :
    OperandsKept s t ∧ ((ChecksPass c s ∧ t.status = ⟨.busy, .none, false⟩) ∨
      (¬ ChecksPass c s ∧ ∃ e, t.status = ⟨.error, e, false⟩)) := by
  have raised : ∀ (e : ErrorCause) (b : Byte), OperandsKept s (raiseError e (beginCommand b s)) := fun e b =>
    (beginCommand_entry e b s).kept
  rcases writeCommand_cases c hb with ⟨hc, hw⟩ | ⟨i, hc, hw⟩
  · cases hw.symm.trans h
    exact ⟨raised _ _, .inr ⟨by simp [ChecksPass, hc], _, rfl⟩⟩
  · rcases accept_cases i s with ⟨hbd, ha⟩ | ⟨-, hal, ha⟩ | ⟨hbd, hal, u, ha, -, hk, hi⟩
    · cases (hw.trans ha).symm.trans h
      exact ⟨raised _ _, .inr ⟨by simp [ChecksPass, hc, hbd], _, rfl⟩⟩
    · cases (hw.trans ha).symm.trans h
      exact ⟨raised _ _, .inr ⟨by simp [ChecksPass, hc, hal], _, rfl⟩⟩
    · cases (hw.trans ha).symm.trans h
      exact ⟨hk, .inl ⟨⟨i, hc, hbd, hal⟩, initCommand_status hi⟩⟩

/-! ### What a step does to STATUS (R15 to R19) -/

/-- The scheduled step is a host write that R44 drops, by its address. -/
def DropsWrite (s : State) : Prop :=
  s.status.state = .busy ∧ ∃ a d rest, s.events = .wr a d :: rest ∧
    (a.toNat < 0x001A ∨ (0x001C ≤ a.toNat ∧ a.toNat < 0x0020) ∨ (0x4000 ≤ a.toNat ∧ a.toNat < 0x4000 + s.msgCap))

/-- The scheduled step clears WDROP (R18): a write to CMD or STATUS that is not dropped, or RESET. -/
def ClearsDrop (s : State) : Prop :=
  (s.status.state ≠ .busy ∧ ∃ d rest, s.events = .wr 0x0018#16 d :: rest ∨ s.events = .wr 0x0019#16 d :: rest) ∨
    ∃ rest, s.events = .reset :: rest

/-- The addresses of `DropsWrite` are those of the locations whose writes are dropped while BUSY. -/
theorem dropsWrite_iff {s : State} {a : Addr} {d : Byte} {rest : List Event} (he : s.events = .wr a d :: rest) :
    DropsWrite s ↔
      s.status.state = .busy ∧ ∃ loc, locate s.msgCap a = some loc ∧ loc.droppedWhileBusy = true := by
  have hcap := msgCap_le_window s
  refine and_congr_right fun _ => ⟨?_, fun ⟨loc, hl, hd⟩ => ⟨a, d, rest, he, (locate_dropped hcap hl).1 hd⟩⟩
  rintro ⟨a', d', rest', he', ha⟩
  cases he.symm.trans he'
  cases hl : locate s.msgCap a with
  | none =>
    have := locate_none.1 hl
    omega
  | some loc => exact ⟨loc, rfl, (locate_dropped hcap hl).2 ha⟩

theorem clearsDrop_iff {s : State} {a : Addr} {d : Byte} {rest : List Event} (he : s.events = .wr a d :: rest) :
    ClearsDrop s ↔
      s.status.state ≠ .busy ∧ (locate s.msgCap a = some .cmd ∨ locate s.msgCap a = some .status) := by
  simp [ClearsDrop, he, locate_eq_cmd, locate_eq_status, exists_or, and_assoc]

/-- Everything a step can do to STATUS, with the event that does it (R16, R18). -/
inductive StatusStep (s t : State) : Prop
  | kept (hd : ¬ DropsWrite s) (hc : ¬ ClearsDrop s) (ht : t.status = s.status)
  | dropped (hd : DropsWrite s) (ht : t.status = ⟨.busy, s.status.err, true⟩)
  | started (c : Byte) (rest : List Event) (he : s.events = .wr 0x0018#16 c :: rest) (hb : s.status.state ≠ .busy)
      (hc : ChecksPass c s) (ht : t.status = ⟨.busy, .none, false⟩)
  | failed (c : Byte) (rest : List Event) (he : s.events = .wr 0x0018#16 c :: rest) (hb : s.status.state ≠ .busy)
      (hc : ¬ ChecksPass c s) (e : ErrorCause) (ht : t.status = ⟨.error, e, false⟩)
  | completed (he : s.events = [] ∨ ∃ rest, s.events = .engine :: rest) (hb : s.status.state = .busy)
      (st : EngineState) (hst : st = .done ∨ st = .error) (e : ErrorCause) (ht : t.status = ⟨st, e, s.status.wdrop⟩)
  | acknowledged (d : Byte) (rest : List Event) (he : s.events = .wr 0x0019#16 d :: rest)
      (hb : s.status.state ≠ .busy) (ht : t.status = ⟨.idle, .none, false⟩)
  | reset (rest : List Event) (he : s.events = .reset :: rest) (ht : t.status = ⟨.idle, .none, false⟩)

/-- No write but that to CMD and that to STATUS touches STATUS. -/
theorem writeLocation_status {d : Byte} {s t : State} {loc : Location} (hc : loc ≠ .cmd) (hs : loc ≠ .status)
    (h : writeLocation d s loc = .next t) : t.status = s.status := by
  cases loc with
  | cmd => exact absurd rfl hc
  | status => exact absurd rfl hs
  | key | iv | irqEn | inLen | outLen | inBuf | outBuf => cases h; rfl

/-- A write that takes effect, by its location. -/
theorem statusStep_of_taken {s t : State} {a : Addr} {d : Byte} {rest : List Event} {loc : Location}
    (he : s.events = .wr a d :: rest) (hl : locate s.msgCap a = some loc)
    (hb : loc.droppedWhileBusy = true → s.status.state ≠ .busy)
    (ht : writeLocation d { s with events := rest, reply := some .ok } loc = .next t) : StatusStep s t := by
  by_cases hcmd : loc = .cmd
  · subst hcmd
    cases locate_eq_cmd.1 hl
    have hcase := (writeCommand_next (s := { s with events := rest, reply := some .ok }) (hb rfl) ht).2
    rcases hcase with ⟨hp, hst⟩ | ⟨hp, e, hst⟩
    · exact .started d rest he (hb rfl) hp hst
    · exact .failed d rest he (hb rfl) hp e hst
  · by_cases hsta : loc = .status
    · subst hsta
      cases locate_eq_status.1 hl
      cases ht
      exact .acknowledged d rest he (hb rfl) rfl
    · refine .kept (fun h => ?_) (fun h => ?_)
        (writeLocation_status (s := { s with events := rest, reply := some .ok }) hcmd hsta ht)
      · obtain ⟨hbusy, loc', hl', hd⟩ := (dropsWrite_iff he).1 h
        cases hl.symm.trans hl'
        exact hb hd hbusy
      · have := ((clearsDrop_iff he).1 h).2
        simp [hl, hcmd, hsta] at this

theorem step_status {s t : State} (h : step s = .next t) : StatusStep s t := by
  cases step_next_cases h with
  | idleTurn rest he hb ht =>
    subst ht
    exact .kept (fun hd => hb hd.1) (by rcases he with he | ⟨he, -⟩ <;> simp [ClearsDrop, he]) rfl
  | completion rest u he hb hu ht =>
    have he : s.events = [] ∨ ∃ rest, s.events = .engine :: rest := he.symm.imp And.left fun h => ⟨rest, h⟩
    have hs : u.status = s.status := hu.kept.status
    rcases ht with ⟨n, rfl⟩ | rfl
    · exact .completed he hb .done (.inl rfl) .none (by rw [finishDone_status, hs])
    · exact .completed he hb .error (.inr rfl) .padding (by rw [raiseError_status, hs])
  | read a rest r n he ht =>
    subst ht
    exact .kept (by simp [DropsWrite, he]) (by simp [ClearsDrop, he]) rfl
  | busErr a d rest he hl ht =>
    subst ht
    exact .kept (by simp [dropsWrite_iff he, hl]) (by simp [clearsDrop_iff he, hl]) rfl
  | dropped a d rest loc he hl hd hb ht =>
    subst ht
    exact .dropped ((dropsWrite_iff he).2 ⟨hb, loc, hl, hd⟩) (by rw [dropWrite_status, ← hb])
  | taken a d rest loc he hl hb ht => exact statusStep_of_taken he hl hb ht
  | reset rest he ht =>
    subst ht
    exact .reset rest he rfl

/-- Settles O51: each case of `StatusStep` that changes STATE is on the list. -/
theorem stateChangesOnlyAsListed : Obligations.StateChangesOnlyAsListed := by
  intro s t h hne
  cases step_status h with
  | kept _ _ ht => exact absurd (congrArg Status.state ht) hne
  | dropped hd ht => exact absurd (by rw [ht, hd.1]) hne
  | started c rest he hb hc ht => exact .inl ⟨hb, c, rest, he, .inl ⟨by rw [ht], hc⟩⟩
  | failed c rest he hb hc e ht =>
    exact .inl ⟨hb, c, rest, he, .inr ⟨by rw [ht], fun i hi hok => hc ⟨i, hi, hok⟩⟩⟩
  | completed he hb st hst e ht => exact .inr (.inl ⟨hb, by rwa [ht], he⟩)
  | acknowledged d rest he hb ht =>
    rw [ht] at hne
    refine .inr (.inr (.inl ⟨?_, by rw [ht], d, rest, he⟩))
    cases hs : s.status.state with
    | idle => exact absurd hs.symm hne
    | busy => exact absurd hs hb
    | done => exact .inl rfl
    | error => exact .inr rfl
  | reset rest he ht => exact .inr (.inr (.inr ⟨by rw [ht], rest, he⟩))

/-- Nothing is both dropped and clearing: the two speak of different states or events. -/
theorem not_dropsWrite_of_clearsDrop {s : State} (h : ClearsDrop s) : ¬ DropsWrite s := by
  rintro ⟨hb, a, d, rest, he, -⟩
  exact ((clearsDrop_iff he).1 h).1 hb

/-- A step drops a write, clears WDROP or leaves it, and one that leaves it does not come to IDLE (R18). -/
theorem StatusStep.wdrop_cases {s t : State} (h : StatusStep s t) :
    (DropsWrite s ∧ t.status.wdrop = true ∧ t.status.state ≠ .idle) ∨
    (ClearsDrop s ∧ t.status.wdrop = false) ∨
    (¬ DropsWrite s ∧ ¬ ClearsDrop s ∧ t.status.wdrop = s.status.wdrop ∧
      (t.status.state = .idle → s.status.state = .idle)) := by
  cases h with
  | kept hd hc ht => exact .inr (.inr ⟨hd, hc, by rw [ht], by rw [ht]; exact id⟩)
  | dropped hd ht => exact .inl ⟨hd, by rw [ht], by simp [ht]⟩
  | started c rest he hb _ ht => exact .inr (.inl ⟨.inl ⟨hb, c, rest, .inl he⟩, by rw [ht]⟩)
  | failed c rest he hb _ e ht => exact .inr (.inl ⟨.inl ⟨hb, c, rest, .inl he⟩, by rw [ht]⟩)
  | acknowledged d rest he hb ht => exact .inr (.inl ⟨.inl ⟨hb, d, rest, .inr he⟩, by rw [ht]⟩)
  | reset rest he ht => exact .inr (.inl ⟨.inr ⟨rest, he⟩, by rw [ht]⟩)
  | completed he hb st hst e ht =>
    have hd : ¬ DropsWrite s := by rcases he with he | ⟨rest, he⟩ <;> simp [DropsWrite, he]
    have hc : ¬ ClearsDrop s := by rcases he with he | ⟨rest, he⟩ <;> simp [ClearsDrop, he]
    refine .inr (.inr ⟨hd, hc, by rw [ht], fun hi => ?_⟩)
    rw [ht] at hi
    rcases hst with rfl | rfl <;> cases hi

/-- Settles O52: a step drops, clears or keeps, and a dropped write does not clear. -/
theorem dropFlagChangesOnlyAsListed : Obligations.DropFlagChangesOnlyAsListed := by
  intro s t h
  rcases (step_status h).wdrop_cases with ⟨hd, ht, hi⟩ | ⟨hc, ht⟩ | ⟨hd, hc, ht, hi⟩
  · exact ⟨fun _ => ht, fun hc => absurd hd (not_dropsWrite_of_clearsDrop hc), fun hn => absurd hd hn,
      fun _ h => absurd h hi⟩
  · exact ⟨fun hd => absurd hd (not_dropsWrite_of_clearsDrop hc), fun _ => ht, fun _ hn => absurd hc hn, fun _ _ => ht⟩
  · exact ⟨fun h => absurd h hd, fun h => absurd h hc, fun _ _ => ht, fun h0 h => ht.trans (h0 (hi h))⟩

/-! ### What a step does to the operand registers (R30) -/

/-- The host-written registers, CMD and IRQ_EN among them, hold the same in both states. -/
structure HostRegistersKept (s t : State) : Prop where
  key : t.key = s.key
  iv : t.iv = s.iv
  cmd : t.cmd = s.cmd
  irqEn : t.irqEn = s.irqEn
  inLen : t.inLen = s.inLen
  inBytes : ∀ j, t.inByte j = s.inByte j

theorem EngineKept.hostRegisters {s t : State} (h : EngineKept s t) : HostRegistersKept s t :=
  ⟨h.key, h.iv, h.cmd, h.irqEn, h.inLen, h.inByte⟩

/-- A finish writes no host-written register. -/
theorem completion_kept {u t : State} (ht : (∃ n, t = finishDone n u) ∨ t = raiseError .padding u) :
    t.capacity = u.capacity ∧ HostRegistersKept u t := by
  rcases ht with ⟨n, rfl⟩ | rfl <;> exact ⟨rfl, rfl, rfl, rfl, rfl, rfl, fun _ => rfl⟩

theorem HostRegistersKept.trans {s t u : State} (h : HostRegistersKept s t) (g : HostRegistersKept t u) :
    HostRegistersKept s u :=
  ⟨g.key.trans h.key, g.iv.trans h.iv, g.cmd.trans h.cmd, g.irqEn.trans h.irqEn, g.inLen.trans h.inLen,
    fun j => (g.inBytes j).trans (h.inBytes j)⟩

/-- A write to a byte of IN changes that byte and no other (R23). -/
theorem inByte_store (s : State) (i : Nat) (d : Byte) (j : Nat) :
    ({ s with inMem := s.inMem.store i d } : State).inByte j = if j = i then d else s.inByte j := by
  simp only [State.inByte, Memory.find_store]
  split <;> rfl

/-- Over the scheduled step each host-written register changes only by a host write to it, and all but IRQ_EN only while
not BUSY (R30, R44). -/
structure HostRegistersWritten (s t : State) : Prop where
  key : t.key = s.key ∨ (s.status.state ≠ .busy ∧ ∃ a d rest, s.events = .wr a d :: rest ∧ a.toNat < 0x0010)
  iv : t.iv = s.iv ∨ (s.status.state ≠ .busy ∧
    ∃ a d rest, s.events = .wr a d :: rest ∧ 0x0010 ≤ a.toNat ∧ a.toNat < 0x0018)
  cmd : t.cmd = s.cmd ∨ (s.status.state ≠ .busy ∧ ∃ d rest, s.events = .wr 0x0018#16 d :: rest)
  irqEn : t.irqEn = s.irqEn ∨ ∃ d rest, s.events = .wr 0x001A#16 d :: rest
  inLen : t.inLen = s.inLen ∨ (s.status.state ≠ .busy ∧
    ∃ a d rest, s.events = .wr a d :: rest ∧ 0x001C ≤ a.toNat ∧ a.toNat < 0x0020)
  inBytes : ∀ j, t.inByte j = s.inByte j ∨ (s.status.state ≠ .busy ∧
    ∃ a d rest, s.events = .wr a d :: rest ∧ a.toNat = 0x4000 + j ∧ t.inByte j = d)

theorem HostRegistersKept.written {s t : State} (h : HostRegistersKept s t) : HostRegistersWritten s t :=
  ⟨.inl h.key, .inl h.iv, .inl h.cmd, .inl h.irqEn, .inl h.inLen, fun j => .inl (h.inBytes j)⟩

/-- A write that takes effect changes at most the register of its location. -/
theorem hostRegistersWritten_of_taken {s t : State} {a : Addr} {d : Byte} {rest : List Event} {loc : Location}
    (he : s.events = .wr a d :: rest) (hl : locate s.msgCap a = some loc)
    (hb : loc.droppedWhileBusy = true → s.status.state ≠ .busy)
    (ht : writeLocation d { s with events := rest, reply := some .ok } loc = .next t) :
    t.capacity = s.capacity ∧ HostRegistersWritten s t := by
  have same : HostRegistersWritten s s := HostRegistersKept.written ⟨rfl, rfl, rfl, rfl, rfl, fun _ => rfl⟩
  have ha := (locate_some hl).1
  cases loc with
  | key i =>
    cases ht
    exact ⟨rfl, { same with key := .inr ⟨hb rfl, a, d, rest, he, ha ▸ i.isLt⟩ }⟩
  | iv i =>
    cases ht
    have hi := i.isLt
    exact ⟨rfl, { same with iv := .inr ⟨hb rfl, a, d, rest, he, by simp only [Location.addr] at ha; omega⟩ }⟩
  | cmd =>
    cases locate_eq_cmd.1 hl
    have hk := (writeCommand_next (s := { s with events := rest, reply := some .ok }) (hb rfl) ht).1
    exact ⟨hk.capacity, .inl hk.key, .inl hk.iv, .inr ⟨hb rfl, d, rest, he⟩, .inl hk.irqEn, .inl hk.inLen,
      fun j => .inl (hk.inBytes j)⟩
  | irqEn =>
    cases ht
    cases locate_eq_irqEn.1 hl
    exact ⟨rfl, { same with irqEn := .inr ⟨d, rest, he⟩ }⟩
  | inLen i =>
    cases ht
    have hi := i.isLt
    exact ⟨rfl, { same with inLen := .inr ⟨hb rfl, a, d, rest, he, by simp only [Location.addr] at ha; omega⟩ }⟩
  | inBuf i =>
    cases ht
    refine ⟨rfl, { same with inBytes := fun j => ?_ }⟩
    have hj := inByte_store { s with events := rest, reply := some .ok } i d j
    by_cases hji : j = i
    · rw [if_pos hji] at hj
      exact .inr ⟨hb rfl, a, d, rest, he, hji ▸ ha, hj⟩
    · rw [if_neg hji] at hj
      exact .inl hj
  | status | outLen | outBuf => cases ht; exact ⟨rfl, { same with }⟩

/-- Over one step MSG_CAP stays, and but for RESET the host-written registers change only by host writes to them. -/
theorem step_hostRegisters {s t : State} (h : step s = .next t) :
    t.capacity = s.capacity ∧ ((∃ rest, s.events = .reset :: rest) ∨ HostRegistersWritten s t) := by
  have kept : HostRegistersKept s s := ⟨rfl, rfl, rfl, rfl, rfl, fun _ => rfl⟩
  cases step_next_cases h with
  | completion rest u he hb hu ht =>
    obtain ⟨hc, hk⟩ := completion_kept ht
    exact ⟨hc.trans hu.kept.capacity, .inr (HostRegistersKept.written { hu.kept.hostRegisters.trans hk with })⟩
  | taken a d rest loc he hl hb ht => exact (hostRegistersWritten_of_taken he hl hb ht).imp_right .inr
  | reset rest he ht => exact ⟨by rw [ht]; rfl, .inl ⟨rest, he⟩⟩
  | idleTurn _ _ _ ht | read _ _ _ _ _ ht | busErr _ _ _ _ _ ht | dropped _ _ _ _ _ _ _ _ ht =>
    subst ht
    exact ⟨rfl, .inr (HostRegistersKept.written { kept with })⟩

/-- Settles O56, by what a step does to the host-written registers. -/
theorem operandsChangeOnlyByHostWrites : Obligations.OperandsChangeOnlyByHostWrites := by
  intro s t h
  obtain ⟨hcap, hreg⟩ := step_hostRegisters h
  exact ⟨hcap, hreg.imp_right fun hw => ⟨hw.key, hw.iv, hw.cmd, hw.irqEn, hw.inLen, hw.inBytes⟩⟩

end Sys2Proof.Machine

/-! PROOF. The statement about writes to the read-only locations of 20_memory.md R43. -/

namespace Sys2Proof.Machine

/-! ### OUT_LEN and OUT, the read-only locations -/

/-- OUT_LEN and OUT by address. The capacity bound keeps the IN window below OUT. -/
theorem exists_locate_isResult {cap : Nat} (hcap : cap ≤ 0x4000) {a : Addr} :
    (∃ loc, locate cap a = some loc ∧ loc.isResult = true) ↔
      (0x0020 ≤ a.toNat ∧ a.toNat < 0x0024) ∨ (0x8000 ≤ a.toNat ∧ a.toNat < 0x8000 + cap + 8) := by
  constructor
  · rintro ⟨loc, hl, hr⟩
    obtain ⟨ha, he⟩ := locate_some hl
    cases loc with
    | outLen i => simp only [Location.addr] at ha; omega
    | outBuf i => simp only [Location.addr, Location.exists] at ha he; omega
    | key | iv | cmd | status | irqEn | inLen | inBuf => cases hr
  · rintro (⟨hlo, hhi⟩ | ⟨hlo, hhi⟩)
    · have haddr : a.toNat = 0x20 + (a.toNat - 0x20) := by omega
      exact ⟨.outLen ⟨a.toNat - 0x20, by omega⟩, (locate_eq_some hcap).2 ⟨haddr, trivial⟩, rfl⟩
    · have haddr : a.toNat = 0x8000 + (a.toNat - 0x8000) := by omega
      have hfit : a.toNat - 0x8000 < cap + 8 := by omega
      exact ⟨.outBuf (a.toNat - 0x8000), (locate_eq_some hcap).2 ⟨haddr, hfit⟩, rfl⟩

/-- A write to a result is not among those R44 drops, so it sets no WDROP. -/
theorem Location.droppedWhileBusy_of_isResult {loc : Location} (h : loc.isResult = true) :
    loc.droppedWhileBusy = false := by
  cases loc with
  | outLen | outBuf => rfl
  | key | iv | cmd | status | irqEn | inLen | inBuf => cases h

theorem writeLocation_of_isResult {loc : Location} (h : loc.isResult = true) (d : Byte) (s : State) :
    writeLocation d s loc = .next s := by
  cases loc with
  | outLen | outBuf => rfl
  | key | iv | cmd | status | irqEn | inLen | inBuf => cases h

/-- Settles O46: the address is that of a result, whose write R44 does not drop and whose effect is none. -/
theorem writesToResultsAreIgnored : Obligations.WritesToResultsAreIgnored := by
  intro s a d rest he ha
  obtain ⟨loc, hl, hr⟩ := (exists_locate_isResult (msgCap_le_window s)).2 ha
  rw [step_wr he, hostWrite_taken (s := { s with events := rest }) hl (.inr (Location.droppedWhileBusy_of_isResult hr)),
    writeLocation_of_isResult hr]
  rfl

end Sys2Proof.Machine

/-! PROOF. The statements about the command byte (30_encoding.md): which bytes decode, how a command is spelled, and what
an illegal byte written to CMD does. -/

namespace Sys2Proof.Machine

/-! ### The command byte and its fields (R60, R68, R69) -/

theorem mem_allCommands (i : Instr) : i ∈ allCommands := by
  cases i with
  | encEcb skip iv | encCbc skip iv | decEcb skip iv | decCbc skip iv => revert skip iv; decide
  | encb | decb => decide

theorem roundTrip (i : Instr) : Laws.RoundTrip.Statement i := by
  cases i with
  | encEcb skip iv => exact Laws.RoundTrip.encEcb skip iv
  | encCbc skip iv => exact Laws.RoundTrip.encCbc skip iv
  | decEcb skip iv => exact Laws.RoundTrip.decEcb skip iv
  | decCbc skip iv => exact Laws.RoundTrip.decCbc skip iv
  | encb => exact Laws.RoundTrip.encb
  | decb => exact Laws.RoundTrip.decb

theorem fieldsOf_encode (i : Instr) : fieldsOf (encode i) = i.fields := (roundTrip i).2.1

theorem decode_encode (i : Instr) : decode (encode i) = some i := (roundTrip i).2.2

/-- The fields cover the byte: each of its eight bits lies in one of them. -/
theorem fieldsOf_injective : Function.Injective fieldsOf := by
  intro c d h
  simp only [fieldsOf, Fields.mk.injEq] at h
  obtain ⟨hop, hmode, hskip, hiven, hrsv⟩ := h
  have bit {lo : Nat} (hf : c.extractLsb' lo 2 = d.extractLsb' lo 2) (j : Nat) (hj : j < 2) :
      c.getLsbD (lo + j) = d.getLsbD (lo + j) := by
    simpa [hj] using congrArg (BitVec.getLsbD · j) hf
  refine BitVec.eq_of_getLsbD_eq fun n hn => ?_
  interval_cases n
  · exact bit hop 0 (by omega)
  · exact bit hop 1 (by omega)
  · exact bit hmode 0 (by omega)
  · exact bit hmode 1 (by omega)
  · exact hskip
  · exact hiven
  · exact bit hrsv 0 (by omega)
  · exact bit hrsv 1 (by omega)

/-- Branch by branch of R69: RSV is 00 in all; the block operations have MODE, SKIP and IVEN 0; MODE is 00 or 01 else. -/
theorem fields_of_decode {c : Byte} {i : Instr} (h : decode c = some i) : i.fields = fieldsOf c := by
  unfold decode at h
  generalize fieldsOf c = f at h ⊢
  obtain ⟨op, mode, skip, iven, rsv⟩ := f
  simp only [Fields.reservedClear, Fields.blockFieldsClear, Fields.isBlockOp, Bool.not_eq_true', beq_eq_false_iff_ne,
    ne_eq, Option.ite_none_left_eq_some, not_not] at h
  obtain ⟨rfl, h⟩ := h
  have two_bits : ∀ x : BitVec 2, x = 0b00#2 ∨ x = 0b01#2 ∨ x = 0b10#2 ∨ x = 0b11#2 := by decide
  rcases two_bits op with rfl | rfl | rfl | rfl
  · rcases two_bits mode with rfl | rfl | rfl | rfl <;> cases h <;> rfl
  · rcases two_bits mode with rfl | rfl | rfl | rfl <;> cases h <;> rfl
  · obtain ⟨⟨⟨rfl, rfl⟩, rfl⟩, rfl⟩ : ((mode = 0#2 ∧ skip = false) ∧ iven = false) ∧ .encb = i := by simpa using h
    rfl
  · obtain ⟨⟨⟨rfl, rfl⟩, rfl⟩, rfl⟩ : ((mode = 0#2 ∧ skip = false) ∧ iven = false) ∧ .decb = i := by simpa using h
    rfl

/-- Decoding is the inverse of taking a command's fields. -/
theorem decode_eq_some_iff {c : Byte} {i : Instr} : decode c = some i ↔ fieldsOf c = i.fields := by
  refine ⟨fun h => (fields_of_decode h).symm, fun h => ?_⟩
  rw [fieldsOf_injective (h.trans (fieldsOf_encode i).symm), decode_encode]

theorem encode_of_decode {c : Byte} {i : Instr} (h : decode c = some i) : encode i = c :=
  fieldsOf_injective ((fieldsOf_encode i).trans (fields_of_decode h))

/-- A byte decodes exactly if it is on the list of R68. -/
theorem decode_isSome_iff {c : Byte} : (decode c).isSome = true ↔ c ∈ allCommands.map encode := by
  rw [Option.isSome_iff_exists, List.mem_map]
  constructor
  · rintro ⟨i, hi⟩
    exact ⟨i, mem_allCommands i, encode_of_decode hi⟩
  · rintro ⟨i, -, rfl⟩
    exact ⟨i, decode_encode i⟩

/-- The fields of a pattern of R68, written as its table writes it. -/
theorem fieldsOf_pattern (v k : BitVec 1) (mode op : BitVec 2) :
    fieldsOf (0b00#2 ++ v ++ k ++ (mode ++ op)) = ⟨op, mode, k == 1#1, v == 1#1, 0b00#2⟩ := by
  revert v k mode op
  decide

/-- Settles O1: a pattern has the fields of its command, and the list of R68 is the bytes of all commands. -/
theorem commandBytesAsTheTableLaysThemOut : Obligations.CommandBytesAsTheTableLaysThemOut := by
  refine ⟨fun v k => ⟨?_, ?_, ?_, ?_⟩, decode_encode .encb, decode_encode .decb, fun c => decode_isSome_iff⟩
  · exact decode_eq_some_iff.2 (fieldsOf_pattern v k 0b00#2 0b00#2)
  · exact decode_eq_some_iff.2 (fieldsOf_pattern v k 0b01#2 0b00#2)
  · exact decode_eq_some_iff.2 (fieldsOf_pattern v k 0b00#2 0b01#2)
  · exact decode_eq_some_iff.2 (fieldsOf_pattern v k 0b01#2 0b01#2)

/-! ### Spellings (R72) -/

theorem spelling_injective : Function.Injective spelling := by
  have hnodup : (allCommands.map spelling).Nodup := by decide
  exact fun i j h => List.inj_on_of_nodup_map hnodup (mem_allCommands i) (mem_allCommands j) h

/-- No two commands share a spelling, so the search finds the command that was spelled. -/
theorem assemble_spelling (i : Instr) : assemble (spelling i) = some (encode i) := by
  have hfind : allCommands.find? (fun j => spelling j == spelling i) = some i := by
    obtain ⟨j, hj⟩ := Option.isSome_iff_exists.1 (List.find?_isSome (p := (spelling · == spelling i)) |>.2
      ⟨i, mem_allCommands i, beq_self_eq_true (spelling i)⟩)
    have hsame : spelling j = spelling i := eq_of_beq (List.find?_some (p := (spelling · == spelling i)) hj)
    rw [hj, spelling_injective hsame]
  rw [assemble, hfind, Option.map_some]

theorem spelling_of_assemble {text : String} (h : (assemble text).isSome = true) : ∃ i, spelling i = text := by
  rw [assemble, Option.isSome_map, List.find?_isSome] at h
  obtain ⟨i, -, hi⟩ := h
  exact ⟨i, eq_of_beq hi⟩

/-- The suffixes add 0x10 and 0x20 to a match value that leaves the s and v bits free. -/
theorem commandByte_eq_add {base : Byte} (hbase : base &&& 0x30#8 = 0#8) (skip iv : Bool) :
    commandByte base skip iv =
      base + ((if skip then 0x10#8 else 0x00#8) + (if iv then 0x20#8 else 0x00#8)) := by
  have hor : ∀ k v : Bool, (if k then 0x10#8 else 0x00#8) + (if v then 0x20#8 else 0x00#8) =
      0x30#8 &&& ((if k then 0x10#8 else 0x00#8) ||| (if v then 0x20#8 else 0x00#8)) := by decide
  have hmask : ∀ k v : Bool, 0x30#8 &&& ((if k then 0x10#8 else 0x00#8) ||| (if v then 0x20#8 else 0x00#8)) =
      (if k then 0x10#8 else 0x00#8) ||| (if v then 0x20#8 else 0x00#8) := by decide
  have hdisjoint (x : Byte) : base &&& (0x30#8 &&& x) = 0#8 := by rw [← BitVec.and_assoc, hbase, BitVec.zero_and]
  rw [hor, BitVec.add_eq_or_of_and_eq_zero _ _ (hdisjoint _), hmask, commandByte, BitVec.or_assoc]

/-- Settles O3: the texts that assemble are the spellings of the commands, each with its command's byte. -/
theorem spellingsAssemble : Obligations.SpellingsAssemble := by
  unfold Obligations.SpellingsAssemble
  intro suffix added
  refine ⟨fun skip iv => ⟨?_, ?_, ?_, ?_⟩, assemble_spelling .encb, assemble_spelling .decb, fun text h => ?_⟩
  · exact (assemble_spelling (.encEcb skip iv)).trans (congrArg some (commandByte_eq_add rfl skip iv))
  · exact (assemble_spelling (.encCbc skip iv)).trans (congrArg some (commandByte_eq_add rfl skip iv))
  · exact (assemble_spelling (.decEcb skip iv)).trans (congrArg some (commandByte_eq_add rfl skip iv))
  · exact (assemble_spelling (.decCbc skip iv)).trans (congrArg some (commandByte_eq_add rfl skip iv))
  · obtain ⟨i, rfl⟩ := spelling_of_assemble h
    cases i with
    | encEcb skip iv => exact .inr (.inr ⟨"ENC.ECB", skip, iv, by simp, rfl⟩)
    | encCbc skip iv => exact .inr (.inr ⟨"ENC.CBC", skip, iv, by simp, rfl⟩)
    | decEcb skip iv => exact .inr (.inr ⟨"DEC.ECB", skip, iv, by simp, rfl⟩)
    | decCbc skip iv => exact .inr (.inr ⟨"DEC.CBC", skip, iv, by simp, rfl⟩)
    | encb => exact .inl rfl
    | decb => exact .inr (.inl rfl)

/-! ### Illegal bytes (R70, R132) -/

theorem not_illegalByte_encode (i : Instr) : ¬ IllegalByte (encode i) := by
  have hall : ∀ j ∈ allCommands, ¬ IllegalByte (encode j) := by
    unfold IllegalByte
    decide
  exact hall i (mem_allCommands i)

theorem IllegalByte.decode_eq_none {c : Byte} (h : IllegalByte c) : decode c = none := by
  refine Option.eq_none_iff_forall_ne_some.2 fun i hi => not_illegalByte_encode i ?_
  rwa [encode_of_decode hi]

theorem writeCommand_of_decode_none {c : Byte} (h : decode c = none) (s : State) :
    writeCommand c s = .next (acceptIllegal c s) := by
  rw [writeCommand, h]

/-- Settles O18: the byte decodes to no command, so its write begins the command and raises ConfigurationError. -/
theorem illegalByteRaisesConfigurationError : Obligations.IllegalByteRaisesConfigurationError := by
  intro s c rest he hs hc
  have hstatus (u : State) : (acceptIllegal c u).status = ⟨.error, .configuration, false⟩ := rfl
  refine ⟨acceptIllegal c { s with events := rest, reply := some .ok }, ?_, beginCommand_entry _ _ _, hstatus _, ?_, rfl⟩
  · rw [step_cmd he hs, writeCommand_of_decode_none hc.decode_eq_none]
  · rw [hstatus]
    decide

end Sys2Proof.Machine

/-! PROOF. The statements about the word codec (40_word_codec.md): its bounds and its range, and that its two operations are
inverse to each other. -/

namespace Sys2Proof.Machine

/-! ### Words read from a buffer (R80) -/

/-- The word at an address of a buffer. -/
def wordAt (buf : Nat → Byte) (a : Nat) : Word := wordOfBytes (buf a) (buf (a + 1)) (buf (a + 2)) (buf (a + 3))

theorem byteOfWord_wordAt (buf : Nat → Byte) (a : Nat) {j : Nat} (hj : j < 4) :
    byteOfWord (wordAt buf a) j = buf (a + j) := by
  interval_cases j <;> simp [wordAt]

/-- A buffer that holds the four bytes of a word at an address has that word there. -/
theorem wordAt_eq_of_bytes {buf : Nat → Byte} {a : Nat} {w : Word} (h : ∀ j, j < 4 → buf (a + j) = byteOfWord w j) :
    wordAt buf a = w := by
  have h0 : buf a = byteOfWord w 0 := h 0 (by omega)
  rw [wordAt, h0, h 1 (by omega), h 2 (by omega), h 3 (by omega), wordOfBytes_byteOfWord]

theorem bytesToWords_eq_wordAt {len : Nat} (buf : Nat → Byte) {off cnt : Nat} (h : off + 4 * cnt ≤ len) :
    bytesToWords len buf off cnt = some ((List.range cnt).map fun i => wordAt buf (off + 4 * i)) :=
  bytesToWords_of_le buf h

/-! ### Words written into a buffer (R81) -/

theorem wordsToBytes_of_le {len : Nat} {words : List Word} (m : Memory) {off : Nat} (h : off + 4 * words.length ≤ len) :
    wordsToBytes len words m off = some (storeWords m off words) :=
  if_pos h

theorem wordsToBytes_of_lt {len : Nat} {words : List Word} (m : Memory) {off : Nat} (h : len < off + 4 * words.length) :
    wordsToBytes len words m off = none :=
  if_neg (by omega)

/-- Settles O4: both bounds are the guards of the operations; word `i` is read off the list, and a byte after the write is
told by `find_storeWords`. -/
theorem codecReadsAndWritesItsRange : Obligations.CodecReadsAndWritesItsRange := by
  refine ⟨fun len buf off cnt => ⟨bytesToWords_of_lt buf, fun h => ?_⟩,
    fun len words m off => ⟨wordsToBytes_of_lt m, fun h => ?_⟩⟩
  · refine ⟨_, bytesToWords_of_le buf h, by simp, fun i hi => ?_⟩
    rw [List.getElem?_map, List.getElem?_range hi]
    rfl
  · exact ⟨_, wordsToBytes_of_le m h, find_storeWords words m off⟩

/-! ### The round trips (R83) -/

/-- The words of `4 * cnt` bytes, stored from address 0 on, put back each byte. -/
theorem find_storeWords_wordAt (m : Memory) (buf : Nat → Byte) {cnt a : Nat} (ha : a < 4 * cnt) :
    (storeWords m 0 ((List.range cnt).map fun i => wordAt buf (4 * i))).find a = some (buf a) := by
  have hlen : ((List.range cnt).map fun i => wordAt buf (4 * i)).length = cnt := by simp
  rw [find_storeWords, if_pos (by omega), Nat.sub_zero, List.getD_eq_getElem _ _ (by omega), List.getElem_map,
    List.getElem_range, byteOfWord_wordAt _ _ (Nat.mod_lt _ (by omega)), Nat.div_add_mod]

/-- Stored words stand at their addresses, whatever a byte never written reads as. -/
theorem wordAt_storeWords (m : Memory) (words : List Word) (rest : Byte) {i : Nat} (hi : i < words.length) :
    wordAt (fun a => ((storeWords m 0 words).find a).getD rest) (4 * i) = words[i] := by
  refine wordAt_eq_of_bytes fun j hj => ?_
  have hdiv : (4 * i + j - 0) / 4 = i := by omega
  have hmod : (4 * i + j - 0) % 4 = j := by omega
  rw [find_storeWords, if_pos (by omega), Option.getD_some, hdiv, hmod, List.getD_eq_getElem _ _ hi]

/-- Settles O5: byte by byte in one direction, word by word in the other. -/
theorem codecRoundTrips : Obligations.CodecRoundTrips := by
  refine ⟨fun bytes cnt hlen => ?_, fun words rest => ?_⟩
  · have hread := bytesToWords_eq_wordAt (fun a => bytes.getD a 0) (show 0 + 4 * cnt ≤ 4 * cnt by omega)
    simp only [Nat.zero_add] at hread
    refine ⟨_, _, hread, wordsToBytes_of_le [] (by simp), fun a => ?_⟩
    by_cases ha : a < 4 * cnt
    · rw [find_storeWords_wordAt [] _ ha, List.getD_eq_getElem _ _ (hlen ▸ ha), List.getElem?_eq_getElem (hlen ▸ ha)]
    · rw [find_storeWords, if_neg (by rw [List.length_map, List.length_range]; omega), Memory.find_nil,
        List.getElem?_eq_none (by omega)]
  · refine ⟨_, wordsToBytes_of_le [] (by omega), ?_⟩
    rw [bytesToWords_eq_wordAt _ (by omega)]
    refine congrArg some (List.ext_getElem (by simp) fun i _ hi => ?_)
    rw [List.getElem_map, List.getElem_range, Nat.zero_add, wordAt_storeWords [] words rest hi]

end Sys2Proof.Machine

/-! PROOF. The statements about the Feistel engine (41_feistel.md): its loops run 32 iterations, its rounds follow the table of
R99, and encipher and decipher are inverse to each other. -/

namespace Sys2Proof.Machine

/-! ### Multiples of DELTA (R95) -/

/-- DELTA is odd, so it has an inverse modulo 2^32 and its multiples below 2^32 are distinct. -/
theorem ofNat_mul_delta_inj {a b : Nat} (ha : a < 2 ^ 32) (hb : b < 2 ^ 32) :
    BitVec.ofNat 32 a * delta = BitVec.ofNat 32 b * delta ↔ a = b := by
  have hinv : delta * 0x144CBC89#32 = 1#32 := by decide
  refine ⟨fun h => ?_, fun h => h ▸ rfl⟩
  have hword : BitVec.ofNat 32 a = BitVec.ofNat 32 b := by
    simpa only [BitVec.mul_assoc, hinv, BitVec.mul_one] using congrArg (· * 0x144CBC89#32) h
  simpa only [BitVec.toNat_ofNat, Nat.mod_eq_of_lt ha, Nat.mod_eq_of_lt hb] using congrArg BitVec.toNat hword

/-- SUM after `r` rounds of decipher is the multiple of DELTA of the rounds that are left. -/
theorem decipherRounds_sum_of_le (kw : KeyWords) (v : Block) {r : Nat} (h : r ≤ 32) :
    (decipherRounds kw v r).sum = BitVec.ofNat 32 (32 - r) * delta := by
  have hlimit : limit = BitVec.ofNat 32 (32 - r) * delta + BitVec.ofNat 32 r * delta := by
    rw [← BitVec.add_mul, ← BitVec.ofNat_add, Nat.sub_add_cancel h, limit, BitVec.mul_comm, rounds]
  rw [decipherRounds_sum, hlimit, BitVec.add_sub_cancel]

/-- Settles O7: the end value of SUM is a multiple of DELTA (32 times in encipher, 0 times in decipher), so only the matching
number of rounds gives it. -/
theorem bothLoopsRunThirtyTwoRounds : Obligations.BothLoopsRunThirtyTwoRounds := by
  refine ⟨fun kw v r hr => ?_, fun s => ?_⟩
  · have he := encipherRounds_sum kw v r
    have hd := decipherRounds_sum_of_le kw v hr
    refine ⟨he, hd, encipherRounds_rnd kw v r, decipherRounds_rnd kw v r, ?_, ?_⟩
    · have hend : 0xC6EF3720#32 = BitVec.ofNat 32 32 * delta := by decide
      rw [he, hend, ofNat_mul_delta_inj (by omega) (by omega)]
    · have hend : 0x00000000#32 = BitVec.ofNat 32 0 * delta := by decide
      rw [hd, hend, ofNat_mul_delta_inj (by omega) (by omega)]
      omega
  · rw [encipherV_eq, decipherV_eq]
    exact ⟨rfl, rfl, rfl, rfl⟩

/-! ### The table of R99 -/

theorem tableSum_eq_mul_delta : ∀ r ≤ 32, tableSum.getD r 0 = BitVec.ofNat 32 r * delta := by decide

/-- Column `a` is SUM[1:0] before the round. -/
theorem tableA_eq_keyIndex : ∀ r < 32, ((tableSum.getD r 0).extractLsb' 0 2).toNat = tableA.getD r 0 := by decide

/-- Column `b` is SUM[12:11] after the round. -/
theorem tableB_eq_keyIndex : ∀ r < 32, ((tableSum.getD (r + 1) 0).extractLsb' 11 2).toNat = tableB.getD r 0 := by decide

theorem keyLow_tableSum (kw : KeyWords) {r : Nat} (h : r < 32) :
    keyLow kw (tableSum.getD r 0) = kw[tableA.getD r 0]?.getD 0 := by
  rw [← tableA_eq_keyIndex r h, getElem?_pos kw _ (BitVec.isLt _), Option.getD_some, keyLow]

theorem keyHigh_tableSum (kw : KeyWords) {r : Nat} (h : r < 32) :
    keyHigh kw (tableSum.getD (r + 1) 0) = kw[tableB.getD r 0]?.getD 0 := by
  rw [← tableB_eq_keyIndex r h, getElem?_pos kw _ (BitVec.isLt _), Option.getD_some, keyHigh]

theorem encipherRounds_sum_eq_tableSum (kw : KeyWords) (v : Block) {r : Nat} (h : r ≤ 32) :
    (encipherRounds kw v r).sum = tableSum.getD r 0 := by
  rw [encipherRounds_sum, tableSum_eq_mul_delta r h]

theorem decipherRounds_sum_eq_tableSum (kw : KeyWords) (v : Block) {r : Nat} (h : r ≤ 32) :
    (decipherRounds kw v (32 - r)).sum = tableSum.getD r 0 := by
  rw [decipherRounds_sum_of_le kw v (Nat.sub_le 32 r), Nat.sub_sub_self h, tableSum_eq_mul_delta r h]

/-- The updates of a round of encipher (R93), in terms of SUM before and after it. -/
theorem encipherRound_updates (kw : KeyWords) (r : Rounds) :
    (encipherRound kw r).y = r.y + (mix r.z ^^^ (r.sum + keyLow kw r.sum)) ∧
    (encipherRound kw r).z = r.z + (mix (encipherRound kw r).y ^^^
      ((encipherRound kw r).sum + keyHigh kw (encipherRound kw r).sum)) :=
  ⟨rfl, rfl⟩

/-- The updates of a round of decipher (R94), in terms of SUM before and after it. -/
theorem decipherRound_updates (kw : KeyWords) (r : Rounds) :
    (decipherRound kw r).z = r.z - (mix r.y ^^^ (r.sum + keyHigh kw r.sum)) ∧
    (decipherRound kw r).y = r.y - (mix (decipherRound kw r).z ^^^
      ((decipherRound kw r).sum + keyLow kw (decipherRound kw r).sum)) :=
  ⟨rfl, rfl⟩

/-- Settles O8: SUM before and after a round stands in the table, and with it the key indices of the two updates; round
`32 - r` of decipher takes the entries of round `r + 1` of encipher. -/
theorem roundsFollowTheTable : Obligations.RoundsFollowTheTable := by
  refine fun kw v => ⟨⟨rfl, rfl⟩, ⟨rfl, rfl⟩, fun r hr => ?_⟩
  have he := encipherRounds_sum_eq_tableSum kw v hr.le
  have he' := encipherRounds_sum_eq_tableSum kw v hr
  have hd : (decipherRounds kw v (31 - r)).sum = tableSum.getD (r + 1) 0 := by
    rw [← Nat.succ_sub_succ 31 r]
    exact decipherRounds_sum_eq_tableSum kw v hr
  have hd' := decipherRounds_sum_eq_tableSum kw v hr.le
  have hround : 31 - r + 1 = 32 - r := by omega
  have hey := encipherRound_updates kw (encipherRounds kw v r)
  have hdz := decipherRound_updates kw (decipherRounds kw v (31 - r))
  rw [← encipherRounds_succ, he, he', keyLow_tableSum kw hr, keyHigh_tableSum kw hr] at hey
  rw [← decipherRounds_succ, hround, hd, hd', keyLow_tableSum kw hr, keyHigh_tableSum kw hr] at hdz
  exact ⟨⟨he, he', hey⟩, hd, hd', hdz⟩

/-! ### The inverses (R96) -/

/-- Encipher ends with the SUM that decipher starts from, so its rounds are undone one by one. -/
theorem decipherBlock_encipherBlock (kw : KeyWords) (v : Block) : decipherBlock kw (encipherBlock kw v) = v := by
  have hsum : (encipherRounds kw v rounds).sum = limit := encipherRounds_rounds_sum kw v
  have hundo : decipherRounds kw (encipherBlock kw v) rounds = ⟨v.v0, v.v1, 0, 0 + rounds⟩ := by
    rw [decipherRounds, ← hsum]
    exact iterate_decipher_encipher kw rounds 0 ⟨v.v0, v.v1, 0, 0⟩
  rw [decipherBlock, hundo]

/-- Decipher ends with the SUM that encipher starts from, so its rounds are undone one by one. -/
theorem encipherBlock_decipherBlock (kw : KeyWords) (v : Block) : encipherBlock kw (decipherBlock kw v) = v := by
  have hsum : (decipherRounds kw v rounds).sum = 0 := decipherRounds_rounds_sum kw v
  have hundo : encipherRounds kw (decipherBlock kw v) rounds = ⟨v.v0, v.v1, limit, 0 + rounds⟩ := by
    rw [encipherRounds, ← hsum]
    exact iterate_encipher_decipher kw rounds 0 ⟨v.v0, v.v1, limit, 0⟩
  rw [encipherBlock, hundo]

/-- Settles O9, by the two directions above. -/
theorem decipherAndEncipherAreInverse : Obligations.DecipherAndEncipherAreInverse :=
  fun kw v => ⟨decipherBlock_encipherBlock kw v, encipherBlock_decipherBlock kw v⟩

end Sys2Proof.Machine

/-! PROOF. The statements about the mode multiplexer (42_modes.md): the XOR of CBC, what a command's chunks leave in CHAIN and
in its registers, and CBC from a zero chaining state. -/

namespace Sys2Proof.Machine

/-! ### The XOR of two blocks (R115) -/

theorem byteOfWord_xor (a b : Word) (j : Nat) : byteOfWord (a ^^^ b) j = byteOfWord a j ^^^ byteOfWord b j := by
  rw [byteOfWord, BitVec.ushiftRight_xor_distrib, BitVec.setWidth_xor, ← byteOfWord, ← byteOfWord]

/-- Settles O10: each byte of a block is a byte of one lane, and the lanes are XORed word by word. -/
theorem cbcXorIsBytewise : Obligations.CbcXorIsBytewise := by
  intro a b j _
  by_cases hlane : j < 4
  · simp only [byteOfBlock, if_pos hlane, Block.xor, byteOfWord_xor]
  · simp only [byteOfBlock, if_neg hlane, Block.xor, byteOfWord_xor]

theorem Block.xor_zero (a : Block) : a.xor ⟨0, 0⟩ = a := by
  simp [Block.xor]

/-! ### The chunks of an accepted command (R111 to R114, R137) -/

/-- The block command `i` stores for chunk `b`, where CHAIN before the chunk is `c`. -/
def chunkOut (i : Instr) (s : State) (b : Nat) (c : Block) : Block :=
  match i with
  | .encEcb _ _ => encipherBlock s.kw (chunkBlock s b)
  | .encCbc _ _ => encipherBlock s.kw ((chunkBlock s b).xor c)
  | .decEcb _ _ => decipherBlock s.kw (inBlock s b)
  | .decCbc _ _ => (decipherBlock s.kw (inBlock s b)).xor c
  | .encb => encipherBlock s.kw (inBlock s b)
  | .decb => decipherBlock s.kw (inBlock s b)

/-- CHAIN after chunk `b` of command `i`, where CHAIN before the chunk is `c`. -/
def chunkChain (i : Instr) (s : State) (b : Nat) (c : Block) : Block :=
  match i with
  | .encEcb _ _ => c
  | .encCbc _ _ => encipherBlock s.kw ((chunkBlock s b).xor c)
  | .decEcb _ _ => c
  | .decCbc _ _ => inBlock s b
  | .encb => c
  | .decb => c

theorem Accepted.chunkSpec {i : Instr} {s : State} (h : Accepted i s) :
    ChunkSpec (chunkBodyOf i) (chunkOut i s) (chunkChain i s) s := by
  have in_le (hop : opOf i ≠ .encrypt) : 8 * s.nblk ≤ s.msgCap := h.size_of_not_encrypt hop ▸ h.nlen_le
  cases i with
  | encEcb skip iv => exact encryptChunk_ecb_spec h.size_le
  | encCbc skip iv => exact encryptChunk_cbc_spec h.size_le
  | decEcb skip iv => exact decryptChunk_ecb_spec (in_le nofun)
  | decCbc skip iv => exact decryptChunk_cbc_spec (in_le nofun)
  | encb => exact blockChunk_encipher_spec (h.block_nlen (.inl rfl)).2
  | decb => exact blockChunk_decipher_spec (h.block_nlen (.inr rfl)).2

/-- The complete step of an accepted command is its chunks, all of them done, and then its finish. -/
theorem Accepted.chunks_done {i : Instr} {s : State} (h : Accepted i s) :
    ∃ u, afterChunks i s = .next u ∧ exec i s = .next (finishOf i u) ∧
      ChunksDone (chunkOut i s) (chunkChain i s) s.nblk s u := by
  obtain ⟨u, hu, hd⟩ := runChunks_spec h.chunkSpec h.blk s.nblk le_rfl
  have hafter : afterChunks i s = .next u := by rw [afterChunks, h.blk, Nat.sub_zero, hu]
  exact ⟨u, hafter, exec_of_afterChunks h.isBusy hafter, hd⟩

/-- The block a chunk stored, read back from OUT after the last chunk. -/
theorem ChunksDone.outBlock {out next : Nat → Block → Block} {n : Nat} {s u : State} (hd : ChunksDone out next n s u)
    {b : Nat} (hb : b < n) :
    (blockOfBytes fun j => u.outByte (8 * b + j)) = out b (chainSeq next s.chain b) := by
  rw [← blockOfBytes_byteOfBlock (out b _)]
  refine blockOfBytes_congr fun j hj => ?_
  have hdiv : (8 * b + j) / 8 = b := by omega
  have hmod : (8 * b + j) % 8 = j := by omega
  rw [State.outByte, hd.find (by omega), Option.getD_some, resultByte, hdiv, hmod]

/-- CHAIN after the last chunk is what that chunk left. -/
theorem ChunksDone.chain_last {out next : Nat → Block → Block} {n : Nat} {s u : State} (hd : ChunksDone out next n s u)
    (hn : n ≠ 0) : u.chain = next (n - 1) (chainSeq next s.chain (n - 1)) := by
  obtain ⟨n, rfl⟩ := Nat.exists_eq_succ_of_ne_zero hn
  exact hd.chain

/-- A command that is not CBC leaves CHAIN alone, chunk after chunk. -/
theorem chainSeq_of_not_cbc {i : Instr} (hm : modeOf i ≠ some .cbc) (s : State) (c : Block) (n : Nat) :
    chainSeq (chunkChain i s) c n = c := by
  cases i with
  | encCbc | decCbc => exact absurd rfl hm
  | encEcb | decEcb | encb | decb => exact chainSeq_ecb c n

/-- PREV is the register of CBC decryption alone (R114). -/
theorem afterChunks_prev {i : Instr} (hi : ¬ (opOf i = .decrypt ∧ modeOf i = some .cbc)) {s u : State}
    (h : afterChunks i s = .next u) : u.prev = s.prev := by
  refine runChunks_prev (fun s t ht => ?_) h
  cases i with
  | encEcb => exact encryptChunk_prev encipherV_prev ht
  | encCbc => exact encryptChunk_prev cbcEncrypt_prev ht
  | decEcb => exact decryptChunk_prev decipherV_prev ht
  | decCbc => exact absurd ⟨rfl, rfl⟩ hi
  | encb => exact blockChunk_prev encipherV_prev ht
  | decb => exact blockChunk_prev decipherV_prev ht

/-! ### The old CHAIN at acceptance (R117, R135) -/

theorem initialChain_withChain {i : Instr} (hm : modeOf i = some .cbc) (s : State) (c : Block) :
    initialChain i { s with chain := c } = initialChain i s := by
  rw [initialChain, initialChain, if_pos hm, if_pos hm]
  rfl

theorem initCommand_withChain {i : Instr} (hm : modeOf i = some .cbc) (n : Nat) (s : State) (c : Block) :
    initCommand i n { s with chain := c } = initCommand i n s := by
  obtain ⟨d, hd⟩ := initialChain_isSome i s
  rw [initCommand_eq (keyWordsOf_eq s) hd,
    initCommand_eq (keyWordsOf_eq { s with chain := c }) ((initialChain_withChain hm s c).trans hd)]
  rfl

/-- Acceptance of a CBC command overwrites CHAIN: with the initial chaining state, or with a draw at an error. -/
theorem accept_withChain {i : Instr} (hm : modeOf i = some .cbc) (s : State) (c : Block) :
    accept i { s with chain := c } = accept i s := by
  have hraise (e : ErrorCause) : raiseError e (beginCommand (encode i) { s with chain := c }) =
      raiseError e (beginCommand (encode i) s) := rfl
  have hinit := initCommand_withChain hm s.inLen.toNat (beginCommand (encode i) s) c
  rw [accept_eq, accept_eq, hraise, hraise, ← hinit]
  rfl

/-- Settles O27: the registers and CHAIN after the chunks are read off `ChunksDone`; in CBC encryption the block a chunk
stores is also the next CHAIN. -/
theorem lastChunkLeavesChainAndRegisters : Obligations.LastChunkLeavesChainAndRegisters := by
  refine ⟨fun i s h => ?_, fun i s c hm hb => ?_⟩
  · obtain ⟨u, hu, hexec, hd⟩ := h.chunks_done
    refine ⟨u, hu, hexec, hd.registers, fun hn => ?_, fun hop hm hn => ?_, fun hop hm hn => ?_, fun _ hn => ?_,
      fun hm => ?_, fun hi => afterChunks_prev hi hu⟩
    · rw [hd.rnd, if_neg hn, rounds]
    · rw [hd.chain_last hn, hd.outBlock (Nat.sub_one_lt hn)]
      cases i with
      | encCbc => rfl
      | encEcb => cases hm
      | decEcb | decCbc | encb | decb => cases hop
    · rw [hd.chain_last hn]
      cases i with
      | decCbc => rfl
      | decEcb => cases hm
      | encEcb | encCbc | encb | decb => cases hop
    · rw [hd.chain, hn, chainSeq]
    · rw [hd.chain, chainSeq_of_not_cbc hm]
  · rw [exec_of_not_busy i hb, exec_of_not_busy i (s := { s with chain := c }) hb, accept_withChain hm]

/-! ### CBC from a zero chaining state (R118) -/

/-- A command that starts passed the checks. -/
theorem checks_of_exec_busy {i : Instr} {s t : State} (hs : s.status.state ≠ .busy) (h : exec i s = .next t)
    (ht : t.status.state = .busy) : BoundsOk i s ∧ AlignOk i s := by
  rw [exec_of_not_busy i hs] at h
  rcases accept_cases i s with ⟨-, ha⟩ | ⟨-, -, ha⟩ | ⟨hb, hal, -⟩
  · cases ha.symm.trans h
    cases ht
  · cases ha.symm.trans h
    cases ht
  · exact ⟨hb, hal⟩

/-- A command that passes the checks is accepted, and its acceptance writes no operand. -/
theorem accepted_of_checks {i : Instr} {s t : State} (hs : s.status.state ≠ .busy) (hb : BoundsOk i s)
    (hal : AlignOk i s) (h : exec i s = .next t) : Accepted i t ∧ OperandsKept s t := by
  rw [exec_of_not_busy i hs] at h
  rcases accept_cases i s with ⟨hn, -⟩ | ⟨-, hn, -⟩ | ⟨-, -, u, hu, hacc, hk, -⟩
  · exact absurd hb hn
  · exact absurd hal hn
  · cases hu.symm.trans h
    exact ⟨hacc, hk⟩

/-- An accepted message encryption ends in DONE with all its chunks as the result (R138). -/
theorem Accepted.encrypt_done {i : Instr} {s : State} (h : Accepted i s) (hop : opOf i = .encrypt) :
    ∃ t, exec i s = .next t ∧ DoneWith (s.nlen + s.padn) (resultByte (chunkOut i s) (chunkChain i s) s) s t := by
  obtain ⟨u, -, hexec, hd⟩ := h.chunks_done
  have hfinish : finishOf i u = finishDone (s.nlen + s.padn) u := by
    rw [← hd.kept.nlen, ← hd.kept.padn]
    cases i with
    | encEcb | encCbc => rfl
    | decEcb | decCbc | encb | decb => cases hop
  exact ⟨_, hfinish ▸ hexec, finishDone_doneWith h hd h.size.ge⟩

/-- The IV block of eight zero bytes is the zero block. -/
theorem ivBlockOf_zero {s : State} (h : ∀ j (hj : j < 8), s.iv[j] = 0x00#8) : ivBlockOf s = some ⟨0, 0⟩ := by
  have hbyte : ∀ j, j < 8 → s.ivByte j = 0x00#8 := fun j hj => by
    rw [State.ivByte, getElem?_pos s.iv j hj, Option.getD_some, h j hj]
  rw [ivBlockOf_eq, blockOfBytes_congr hbyte]
  rfl

/-- The initial chaining state is zero without a supplied IV and with an IV of zero bytes (R135). -/
theorem initialChain_zero {i : Instr} {s : State} (hm : modeOf i = some .cbc)
    (h : ivSuppliedOf i = false ∨ ∀ j (hj : j < 8), s.iv[j] = 0x00#8) : initialChain i s = some ⟨0, 0⟩ := by
  rw [initialChain, if_pos hm]
  split
  · next hiv => exact ivBlockOf_zero (h.resolve_left (by simp [hiv]))
  · rfl

/-- Two accepted commands on the same operands with the same pad count hold the same key words and the same message. -/
theorem accepted_same_message {i j : Instr} {s a b : State} (ha : Accepted i a) (hb : Accepted j b)
    (hka : OperandsKept s a) (hkb : OperandsKept s b) (hpad : padCount i = padCount j) :
    a.kw = b.kw ∧ a.nlen = b.nlen ∧ a.padn = b.padn ∧ ∀ n, chunkBlock a n = chunkBlock b n := by
  have hkw : a.kw = b.kw := by
    have hkey : keyWordsOf a = keyWordsOf b := by
      simp only [keyWordsOf_eq, State.keyByte, hka.key, hkb.key]
    exact Option.some.inj (ha.kw.symm.trans (hkey.trans hb.kw))
  have hnlen : a.nlen = b.nlen := by rw [ha.nlen, hb.nlen, hka.inLen, hkb.inLen]
  have hpadn : a.padn = b.padn := by rw [ha.padn, hb.padn, hnlen, hpad]
  refine ⟨hkw, hnlen, hpadn, fun n => blockOfBytes_congr fun k _ => ?_⟩
  simp only [chunkByte, hnlen, hpadn, hka.inBytes, hkb.inBytes]

/-- Settles O30: both commands hold the same key words and message, and CBC XORs its first chunk with a zero block. -/
theorem zeroChainStartsLikeEcb : Obligations.ZeroChainStartsLikeEcb := by
  intro skip iv s a b hs hiv hexa hexb hbusy
  obtain ⟨hbounds, halign⟩ := checks_of_exec_busy hs hexa hbusy
  obtain ⟨ha, hka⟩ := accepted_of_checks hs hbounds halign hexa
  obtain ⟨hb, hkb⟩ := accepted_of_checks (i := .encEcb skip iv) hs hbounds halign hexb
  obtain ⟨hkw, hnlen, hpadn, hchunk⟩ := accepted_same_message ha hb hka hkb rfl
  have hchain : a.chain = ⟨0, 0⟩ := by
    have hzero : initialChain (.encCbc skip iv) a = some ⟨0, 0⟩ := initialChain_zero rfl (by rwa [hka.iv])
    exact Option.some.inj ((ha.chain rfl).symm.trans hzero)
  have hfirst : chunkOut (.encCbc skip iv) a 0 a.chain = chunkOut (.encEcb skip iv) b 0 b.chain := by
    rw [chunkOut, chunkOut, hchain, Block.xor_zero, hkw, hchunk]
  obtain ⟨c, hc, hdc⟩ := ha.encrypt_done rfl
  obtain ⟨d, hd, hdd⟩ := hb.encrypt_done rfl
  rw [← hnlen, ← hpadn] at hdd
  refine ⟨c, d, hc, hd, BitVec.eq_of_toNat_eq (hdc.outLen.trans hdd.outLen.symm), fun j hj hlen => ?_⟩
  rw [hdc.outLen] at hlen
  have hchunk0 : j / 8 = 0 := Nat.div_eq_of_lt hj
  rw [State.outByte, State.outByte, hdc.result j hlen, hdd.result j hlen, Option.getD_some, Option.getD_some, resultByte,
    resultByte, hchunk0, chainSeq, chainSeq, hfirst]

end Sys2Proof.Machine

/-! PROOF. The statements about the block driver (43_block_driver.md): the pad count, the acceptance of each command, its
complete step, and the round trip of a message. -/

namespace Sys2Proof.Machine

/-! ### The pad count and the chunks of the padded message (R131, R136) -/

theorem padCount_of_not_encrypt {i : Instr} (hop : opOf i ≠ .encrypt) (n : Nat) : padCount i n = 0 := by
  cases i with
  | encEcb | encCbc => exact absurd rfl hop
  | decEcb | decCbc | encb | decb => rfl

theorem padCount_of_skip {i : Instr} (hskip : skipOf i = true) (n : Nat) : padCount i n = 0 := by
  cases i with
  | encEcb | encCbc => exact if_pos hskip
  | decEcb | decCbc | encb | decb => rfl

theorem padCount_of_padded {i : Instr} (hop : opOf i = .encrypt) (hskip : skipOf i = false) (n : Nat) :
    padCount i n = 8 - n % 8 := by
  rw [padCount, hop, hskip]
  rfl

theorem Accepted.padn_of_skip {i : Instr} {s : State} (h : Accepted i s) (hskip : skipOf i = true) : s.padn = 0 := by
  rw [h.padn, padCount_of_skip hskip]

theorem Accepted.padn_of_padded {i : Instr} {s : State} (h : Accepted i s) (hop : opOf i = .encrypt)
    (hskip : skipOf i = false) : s.padn = 8 - s.nlen % 8 := by
  rw [h.padn, padCount_of_padded hop hskip]

theorem Accepted.nblk_of_encrypt {i : Instr} {s : State} (h : Accepted i s) (hop : opOf i = .encrypt) :
    s.nblk = s.nlen / 8 + (if skipOf i then 0 else 1) := by
  have hsize := h.size
  split
  · next hskip =>
    have hpad := h.padn_of_skip hskip
    omega
  · next hskip =>
    have hpad := h.padn_of_padded hop (by simpa using hskip)
    omega

/-- A byte of the message (R136). -/
theorem chunkByte_of_lt {s : State} {b j : Nat} (h : 8 * b + j < s.nlen) : chunkByte s b j = s.inByte (8 * b + j) :=
  if_pos h

/-- A byte of the padding (R136). -/
theorem chunkByte_of_le {s : State} {b j : Nat} (h : s.nlen ≤ 8 * b + j) : chunkByte s b j = BitVec.ofNat 8 s.padn :=
  if_neg (Nat.not_lt.2 h)

/-- Settles O13: the added block lies beyond the message, so each of its bytes is PADN. -/
theorem padCountAlwaysPads : Obligations.PadCountAlwaysPads := by
  refine ⟨fun i n => ⟨fun hop => padCount_of_not_encrypt hop n, fun hskip => padCount_of_skip hskip n,
    fun hop hskip => ?_⟩, fun i s h hop hskip halign j _ => ?_⟩
  · have hpad := padCount_of_padded hop hskip n
    omega
  · have hpad : s.padn = 8 := by rw [h.padn_of_padded hop hskip, halign]
    rw [chunkByte_of_le (by omega), hpad]

/-- Settles O14: a byte of a chunk is a byte of IN below NLEN and PADN from there on. -/
theorem lastChunkCarriesThePadding : Obligations.LastChunkCarriesThePadding := by
  intro i s h hop
  refine ⟨h.nblk_of_encrypt hop, fun b j hb hj => chunkByte_of_lt (by omega), fun hskip => ?_, fun hskip =>
    ⟨fun j hj => chunkByte_of_lt (by omega), fun j hj hj8 => ?_⟩⟩
  · rw [h.nlen]
    exact h.align.2 hop hskip
  · have hpad := h.padn_of_padded hop hskip
    rw [chunkByte_of_le (by omega), hpad, BitVec.toNat_ofNat]
    omega

/-! ### The checks of acceptance (R133, R134) -/

theorem boundsOk_of_message {i : Instr} (hop : opOf i = .encrypt ∨ opOf i = .decrypt) {s : State} :
    BoundsOk i s ↔ s.inLen.toNat ≤ s.msgCap := by
  refine ⟨fun h => h.1 hop, fun h => ⟨fun _ => h, fun hblock => ?_⟩⟩
  rcases hop with e | e <;> simp [e] at hblock

theorem boundsOk_of_block {i : Instr} (hop : opOf i = .encryptBlock ∨ opOf i = .decryptBlock) {s : State} :
    BoundsOk i s ↔ s.inLen.toNat = 8 := by
  refine ⟨fun h => h.2 hop, fun h => ⟨fun hmessage => ?_, fun _ => h⟩⟩
  rcases hop with e | e <;> simp [e] at hmessage

theorem alignOk_of_encrypt {i : Instr} (hop : opOf i = .encrypt) {s : State} :
    AlignOk i s ↔ (skipOf i = true → s.inLen.toNat % 8 = 0) := by
  simp [AlignOk, hop]

theorem alignOk_of_decrypt {i : Instr} (hop : opOf i = .decrypt) {s : State} :
    AlignOk i s ↔ s.inLen.toNat % 8 = 0 := by
  simp [AlignOk, hop]

theorem alignOk_of_block {i : Instr} (hop : opOf i = .encryptBlock ∨ opOf i = .decryptBlock) (s : State) :
    AlignOk i s := by
  rcases hop with e | e <;> simp [AlignOk, e]

/-! ### Acceptance, outcome by outcome (R130) -/

theorem exec_of_not_boundsOk {i : Instr} {s : State} (hs : s.status.state ≠ .busy) (hb : ¬ BoundsOk i s) :
    exec i s = .next (raiseError .bounds (beginCommand (encode i) s)) := by
  rw [exec_of_not_busy i hs]
  rcases accept_cases i s with ⟨-, h⟩ | ⟨hb', -⟩ | ⟨hb', -⟩
  · exact h
  · exact absurd hb' hb
  · exact absurd hb' hb

theorem exec_of_not_alignOk {i : Instr} {s : State} (hs : s.status.state ≠ .busy) (hb : BoundsOk i s)
    (ha : ¬ AlignOk i s) : exec i s = .next (raiseError .alignment (beginCommand (encode i) s)) := by
  rw [exec_of_not_busy i hs]
  rcases accept_cases i s with ⟨hb', -⟩ | ⟨-, -, h⟩ | ⟨-, ha', -⟩
  · exact absurd hb hb'
  · exact h
  · exact absurd ha' ha

theorem exec_of_checks {i : Instr} {s : State} (hs : s.status.state ≠ .busy) (hb : BoundsOk i s) (ha : AlignOk i s) :
    ∃ t, exec i s = .next t ∧ Accepted i t ∧ OperandsKept s t ∧
      initCommand i s.inLen.toNat (beginCommand (encode i) s) = some t := by
  rw [exec_of_not_busy i hs]
  rcases accept_cases i s with ⟨hb', -⟩ | ⟨-, ha', -⟩ | ⟨-, -, h⟩
  · exact absurd hb hb'
  · exact absurd ha ha'
  · exact h

/-- Settles O16: the bounds check comes first, so alignment does not matter. -/
theorem badLengthRaisesBoundsError : Obligations.BadLengthRaisesBoundsError := by
  intro i s hs hlen
  have hb : ¬ BoundsOk i s := by
    rcases hlen with ⟨hop, hlen⟩ | ⟨hop, hlen⟩
    · rw [boundsOk_of_message hop]
      omega
    · rwa [boundsOk_of_block hop]
  exact ⟨_, exec_of_not_boundsOk hs hb, beginCommand_entry _ _ s, rfl, rfl⟩

/-- Settles O17: a decryption, and an encryption with SKIP, pass the alignment check on whole blocks only; an encryption
without SKIP always does. -/
theorem misalignedLengthRaisesAlignmentError : Obligations.MisalignedLengthRaisesAlignmentError := by
  refine fun i s hs hfits => ⟨fun hlen hop => ?_, fun hop hskip => ?_⟩
  · have hb : BoundsOk i s := (boundsOk_of_message (hop.symm.imp_left And.left)).2 hfits
    have ha : ¬ AlignOk i s := by
      rcases hop with hop | ⟨hop, hskip⟩
      · rwa [alignOk_of_decrypt hop]
      · rw [alignOk_of_encrypt hop]
        exact fun h => hlen (h hskip)
    exact ⟨_, exec_of_not_alignOk hs hb ha, beginCommand_entry _ _ s, rfl, rfl⟩
  · have ha : AlignOk i s := (alignOk_of_encrypt hop).2 (by simp [hskip])
    obtain ⟨t, ht, -, -, hinit⟩ := exec_of_checks hs ((boundsOk_of_message (.inl hop)).2 hfits) ha
    exact ⟨t, ht, initCommand_status hinit⟩

/-- Settles O21: BoundsError, AlignmentError and BUSY are the outcomes, and only the second has that cause. -/
theorem skipEncryptionAlignsOrFails : Obligations.SkipEncryptionAlignsOrFails := by
  intro i s hs hop hskip
  have hbounds : BoundsOk i s ↔ s.inLen.toNat ≤ s.msgCap := boundsOk_of_message (.inl hop)
  have halign : AlignOk i s ↔ s.inLen.toNat % 8 = 0 := by simp [alignOk_of_encrypt hop, hskip]
  rw [ne_eq, ← Nat.not_le, ← hbounds, ← halign]
  refine ⟨⟨fun ⟨t, ht, hstate, herr⟩ => ?_, fun ⟨hb, ha⟩ => ⟨_, exec_of_not_alignOk hs hb ha, rfl, rfl⟩⟩,
    fun hb => ⟨_, exec_of_not_boundsOk hs hb, rfl, rfl⟩⟩
  by_cases hb : BoundsOk i s
  · refine ⟨hb, fun ha => ?_⟩
    obtain ⟨hacc, -⟩ := accepted_of_checks hs hb ha ht
    cases hacc.state.symm.trans hstate
  · cases (exec_of_not_boundsOk hs hb).symm.trans ht
    cases herr

/-! ### What acceptance sets (R135) -/

theorem getElem_of_keyWordsOf {s : State} {kw : KeyWords} (h : keyWordsOf s = some kw) {j : Nat} (hj : j < 4) :
    kw[j] =
      wordOfBytes (s.keyByte (4 * j)) (s.keyByte (4 * j + 1)) (s.keyByte (4 * j + 2)) (s.keyByte (4 * j + 3)) := by
  cases (keyWordsOf_eq s).symm.trans h
  interval_cases j <;> rfl

theorem initialChain_of_supplied {i : Instr} (hm : modeOf i = some .cbc) (hiv : ivSuppliedOf i = true) (s : State) :
    initialChain i s = some (blockOfBytes s.ivByte) := by
  rw [initialChain, if_pos hm, if_pos hiv, ivBlockOf_eq]

theorem initialChain_of_not_cbc {i : Instr} (hm : modeOf i ≠ some .cbc) (s : State) : initialChain i s = some s.chain :=
  if_neg hm

/-- Initialisation makes KW and CHAIN, and leaves the engine's working registers and the draws alone. -/
structure CommandInit (i : Instr) (s t : State) : Prop where
  kw : keyWordsOf s = some t.kw
  chain : initialChain i s = some t.chain
  v : t.v = s.v
  sum : t.sum = s.sum
  rnd : t.rnd = s.rnd
  prev : t.prev = s.prev
  drawn : t.drawn = s.drawn
  outDraw : t.outDraw = s.outDraw

theorem commandInit_of_initCommand {i : Instr} {n : Nat} {s t : State} (h : initCommand i n s = some t) :
    CommandInit i s t := by
  obtain ⟨c, hc⟩ := initialChain_isSome i s
  cases (initCommand_eq (keyWordsOf_eq s) hc).symm.trans h
  exact ⟨keyWordsOf_eq s, hc, rfl, rfl, rfl, rfl, rfl, rfl⟩

/-- Settles O15: the counts follow from `Accepted`, everything else from what initialisation sets. -/
theorem acceptanceStartsTheCommand : Obligations.AcceptanceStartsTheCommand := by
  intro i s hs hb ha
  obtain ⟨t, ht, hacc, hkept, hinit⟩ := exec_of_checks hs hb ha
  have hset := commandInit_of_initCommand hinit
  refine ⟨t, ht, hacc, initCommand_status hinit, hkept, fun j hj => getElem_of_keyWordsOf hset.kw hj,
    fun hm hiv => ?_, fun hm hiv => ?_, fun hm => ?_, hacc.size, hacc.nblk_of_encrypt, fun hop => ?_,
    fun hop => (hacc.block_nlen hop).2, hset.v, hset.sum, hset.rnd, hset.prev, ?_, ?_⟩
  · exact Option.some.inj (hset.chain.symm.trans (initialChain_of_supplied hm hiv _))
  · exact Option.some.inj (hset.chain.symm.trans (initialChain_zero hm (.inl hiv)))
  · exact Option.some.inj (hset.chain.symm.trans (initialChain_of_not_cbc hm _))
  · have hsize := hacc.size_of_not_encrypt (by simp [hop])
    omega
  · simp [hset.outDraw]
  · simp [hset.outDraw, hset.drawn]

/-- How a message command begins: its alignment check is the only thing that tells the commands apart. -/
theorem messageStarts_of_alignOk {i : Instr} {mustAlign : Bool} {s : State}
    (hop : opOf i = .encrypt ∨ opOf i = .decrypt)
    (halign : AlignOk i s ↔ (mustAlign = true → s.inLen.toNat % 8 = 0)) : MessageStarts i mustAlign s := by
  refine fun hs => ⟨fun hlen => ?_, fun hfits hmust hlen => ?_, fun hfits hlen => ?_⟩
  · have hb : ¬ BoundsOk i s := by
      rw [boundsOk_of_message hop]
      omega
    exact ⟨_, exec_of_not_boundsOk hs hb, beginCommand_entry _ _ s⟩
  · have ha : ¬ AlignOk i s := fun ha => hlen (halign.1 ha hmust)
    exact ⟨_, exec_of_not_alignOk hs ((boundsOk_of_message hop).2 hfits) ha, beginCommand_entry _ _ s⟩
  · obtain ⟨t, ht, hacc, -⟩ := exec_of_checks hs ((boundsOk_of_message hop).2 hfits) (halign.2 hlen)
    exact ⟨t, ht, hacc⟩

theorem messageStarts_of_encrypt {i : Instr} (hop : opOf i = .encrypt) (s : State) : MessageStarts i (skipOf i) s :=
  messageStarts_of_alignOk (.inl hop) (alignOk_of_encrypt hop)

theorem messageStarts_of_decrypt {i : Instr} (hop : opOf i = .decrypt) (s : State) : MessageStarts i true s :=
  messageStarts_of_alignOk (.inr hop) ((alignOk_of_decrypt hop).trans (by simp))

/-! ### The result of a command, chunk by chunk -/

/-- The block command `i` leaves in OUT for chunk `b`. -/
def resultBlock (i : Instr) (s : State) (b : Nat) : Block := chunkOut i s b (chainSeq (chunkChain i s) s.chain b)

/-- The bytes command `i` leaves in OUT. -/
def resultBytes (i : Instr) (s : State) (a : Nat) : Byte := byteOfBlock (resultBlock i s (a / 8)) (a % 8)

theorem resultByte_chunks (i : Instr) (s : State) :
    resultByte (chunkOut i s) (chunkChain i s) s = resultBytes i s := rfl

theorem resultBlock_encEcb (skip iv : Bool) (s : State) (b : Nat) :
    resultBlock (.encEcb skip iv) s b = encipherBlock s.kw (chunkBlock s b) := rfl

theorem resultBlock_encCbc (skip iv : Bool) (s : State) (b : Nat) :
    resultBlock (.encCbc skip iv) s b = cbcCipher s.kw s.chain (chunkBlock s) b :=
  chainSeq_cbcEncrypt s.kw s.chain (chunkBlock s) b

theorem resultBlock_decEcb (skip iv : Bool) (s : State) (b : Nat) :
    resultBlock (.decEcb skip iv) s b = decipherBlock s.kw (inBlock s b) := rfl

theorem resultBlock_decCbc (skip iv : Bool) (s : State) (b : Nat) :
    resultBlock (.decCbc skip iv) s b = cbcPlain s.kw s.chain (inBlock s) b :=
  chainSeq_cbcDecrypt s.kw s.chain (inBlock s) b

theorem resultBlock_of_decrypt {i : Instr} (hop : opOf i = .decrypt) (s : State) (b : Nat) :
    resultBlock i s b =
      if modeOf i = some .cbc then cbcPlain s.kw s.chain (inBlock s) b else decipherBlock s.kw (inBlock s b) := by
  cases i with
  | decEcb => rfl
  | decCbc skip iv => exact resultBlock_decCbc skip iv s b
  | encEcb | encCbc | encb | decb => cases hop

theorem DoneWith.outByte {n : Nat} {out : Nat → Byte} {s t : State} (h : DoneWith n out s t) {a : Nat} (ha : a < n) :
    t.outByte a = out a := by
  rw [State.outByte, h.result a ha, Option.getD_some]

theorem DoneWith.congr {n : Nat} {out out' : Nat → Byte} {s t : State} (h : DoneWith n out s t)
    (hout : ∀ a, a < n → out a = out' a) : DoneWith n out' s t :=
  { h with result := fun a ha => (h.result a ha).trans (congrArg some (hout a ha)) }

/-- The chunks of a command that is not CBC leave CHAIN alone (R26). -/
theorem Accepted.chain_of_not_cbc {i : Instr} {s : State} (h : Accepted i s) (hm : modeOf i ≠ some .cbc) :
    ∃ u, afterChunks i s = .next u ∧ u.chain = s.chain := by
  obtain ⟨u, hu, -, hd⟩ := h.chunks_done
  exact ⟨u, hu, by rw [hd.chain, chainSeq_of_not_cbc hm]⟩

/-- CHAIN after the chunks of any command: what the last one left, or the initial chaining state (R117). -/
theorem Accepted.chain_after {i : Instr} {s : State} (h : Accepted i s) :
    ∃ u, afterChunks i s = .next u ∧ u.chain = if s.nblk = 0 then s.chain else
      chunkChain i s (s.nblk - 1) (chainSeq (chunkChain i s) s.chain (s.nblk - 1)) := by
  obtain ⟨u, hu, -, hd⟩ := h.chunks_done
  refine ⟨u, hu, ?_⟩
  split
  · next hn => rw [hd.chain, hn, chainSeq]
  · next hn => exact hd.chain_last hn

/-! ### The finish of each kind of command (R138, R139, R144, R145) -/

theorem Accepted.decrypt_skip_done {i : Instr} {s : State} (h : Accepted i s) (hop : opOf i = .decrypt)
    (hskip : skipOf i = true) : ∃ t, exec i s = .next t ∧ DoneWith s.nlen (resultBytes i s) s t := by
  obtain ⟨u, -, hexec, hd⟩ := h.chunks_done
  have hfinish : finishOf i u = finishDone s.nlen u := by
    rw [← hd.kept.nlen]
    cases i with
    | decEcb | decCbc => cases hskip; rfl
    | encEcb | encCbc | encb | decb => cases hop
  have hsize := h.size_of_not_encrypt (by simp [hop])
  exact ⟨_, hfinish ▸ hexec, finishDone_doneWith h hd hsize.ge⟩

/-- A decryption without SKIP ends in the strip of all its chunks (R139): PaddingError, or DONE with the count in the last
byte taken off. -/
theorem Accepted.decrypt_strip {i : Instr} {s : State} (h : Accepted i s) (hop : opOf i = .decrypt)
    (hskip : skipOf i = false) :
    let p := (resultBytes i s (s.nlen - 1)).toNat
    ∃ t, exec i s = .next t ∧
      (((s.nlen = 0 ∨ s.nlen < p) ∧ ErrorEntry .padding s t ∧ t.status = ⟨.error, .padding, s.status.wdrop⟩ ∧
          t.cmd = s.cmd) ∨
        (s.nlen ≠ 0 ∧ p ≤ s.nlen ∧ DoneWith (s.nlen - p) (resultBytes i s) s t)) := by
  obtain ⟨u, -, hexec, hd⟩ := h.chunks_done
  have hfinish : finishOf i u = strip u := by
    cases i with
    | decEcb | decCbc => cases hskip; rfl
    | encEcb | encCbc | encb | decb => cases hop
  have hsize := h.size_of_not_encrypt (by simp [hop])
  refine ⟨_, hfinish ▸ hexec, ?_⟩
  rcases strip_done hd hsize with ⟨hp, hstrip⟩ | ⟨hn, hp, hstrip⟩
  · rw [hstrip]
    refine .inl ⟨hp, padding_entry hd, ?_, hd.kept.cmd⟩
    rw [← hd.kept.status]
    rfl
  · rw [hstrip]
    exact .inr ⟨hn, hp, finishDone_doneWith h hd (by omega)⟩

theorem Accepted.strip_error {i : Instr} {s : State} (h : Accepted i s) (hop : opOf i = .decrypt)
    (hskip : skipOf i = false) (hp : s.nlen = 0 ∨ s.nlen < (resultBytes i s (s.nlen - 1)).toNat) :
    ∃ t, exec i s = .next t ∧ ErrorEntry .padding s t ∧ t.status = ⟨.error, .padding, s.status.wdrop⟩ ∧
      t.cmd = s.cmd := by
  obtain ⟨t, ht, ⟨-, herr⟩ | ⟨hn, hle, -⟩⟩ := h.decrypt_strip hop hskip
  · exact ⟨t, ht, herr⟩
  · omega

theorem Accepted.strip_done {i : Instr} {s : State} (h : Accepted i s) (hop : opOf i = .decrypt)
    (hskip : skipOf i = false) (hn : s.nlen ≠ 0) (hp : (resultBytes i s (s.nlen - 1)).toNat ≤ s.nlen) :
    ∃ t, exec i s = .next t ∧
      DoneWith (s.nlen - (resultBytes i s (s.nlen - 1)).toNat) (resultBytes i s) s t := by
  obtain ⟨t, ht, ⟨herr, -⟩ | ⟨-, -, hdone⟩⟩ := h.decrypt_strip hop hskip
  · omega
  · exact ⟨t, ht, hdone⟩

theorem Accepted.block_done {i : Instr} {s : State} (h : Accepted i s)
    (hop : opOf i = .encryptBlock ∨ opOf i = .decryptBlock) :
    ∃ t, exec i s = .next t ∧ DoneWith 8 (resultBytes i s) s t := by
  obtain ⟨u, -, hexec, hd⟩ := h.chunks_done
  have hfinish : finishOf i u = finishDone 8 u := by
    cases i with
    | encb | decb => rfl
    | encEcb | encCbc | decEcb | decCbc => simp [opOf] at hop
  have hnblk : s.nblk = 1 := (h.block_nlen hop).2
  exact ⟨_, hfinish ▸ hexec, finishDone_doneWith h hd (by omega)⟩

/-! ### The six commands (R140 to R145) -/

/-- Settles O22: the start by the checks of ENCRYPT, the result block by block. -/
theorem encEcbCompletes : Obligations.EncEcbCompletes := by
  refine fun skip iv s => ⟨messageStarts_of_encrypt rfl s, fun h => ?_⟩
  obtain ⟨u, hu, hchain⟩ := h.chain_of_not_cbc nofun
  obtain ⟨t, ht, hdone⟩ := h.encrypt_done rfl
  exact ⟨u, t, hu, hchain, ht, hdone⟩

/-- Settles O23: as O22, where the block stored for each chunk is the next CHAIN. -/
theorem encCbcCompletes : Obligations.EncCbcCompletes := by
  refine fun skip iv s => ⟨messageStarts_of_encrypt rfl s, fun h => ?_⟩
  obtain ⟨u, hu, hchain⟩ := h.chain_after
  obtain ⟨t, ht, hdone⟩ := h.encrypt_done rfl
  refine ⟨u, t, hu, ?_, ht, hdone.congr fun a _ => ?_⟩
  · rw [hchain, ← resultBlock_encCbc skip iv]
    rfl
  · rw [resultByte_chunks, resultBytes, resultBlock_encCbc]

/-- The complete step of a message decryption, for `out` its result bytes. -/
theorem Accepted.decrypt_completes {i : Instr} {s : State} (h : Accepted i s) (hop : opOf i = .decrypt)
    {out : Nat → Byte} (hout : resultBytes i s = out) :
    (skipOf i = true → ∃ t, exec i s = .next t ∧ DoneWith s.nlen out s t) ∧
    (skipOf i = false → s.nlen ≠ 0 → (out (s.nlen - 1)).toNat ≤ s.nlen →
      ∃ t, exec i s = .next t ∧ DoneWith (s.nlen - (out (s.nlen - 1)).toNat) out s t) ∧
    (skipOf i = false → (s.nlen = 0 ∨ s.nlen < (out (s.nlen - 1)).toNat) →
      ∃ t, exec i s = .next t ∧ ErrorEntry .padding s t) := by
  subst hout
  refine ⟨h.decrypt_skip_done hop, h.strip_done hop, fun hskip hp => ?_⟩
  obtain ⟨t, ht, herr, -⟩ := h.strip_error hop hskip hp
  exact ⟨t, ht, herr⟩

/-- Settles O24: the start by the checks of DECRYPT, the result block by block, then the strip. -/
theorem decEcbCompletes : Obligations.DecEcbCompletes := fun _ _ s =>
  ⟨messageStarts_of_decrypt rfl s, fun h => ⟨h.chain_of_not_cbc nofun, h.decrypt_completes rfl rfl⟩⟩

/-- Settles O25: as O24, where CHAIN after each chunk is the ciphertext block it read. -/
theorem decCbcCompletes : Obligations.DecCbcCompletes := by
  refine fun skip iv s => ⟨messageStarts_of_decrypt rfl s, fun h => ⟨h.chain_after, h.decrypt_completes rfl ?_⟩⟩
  funext a
  rw [resultBytes, resultBlock_decCbc]

/-- How a block command begins: the alignment check never fails. -/
theorem blockStarts {i : Instr} (hop : opOf i = .encryptBlock ∨ opOf i = .decryptBlock) {s : State}
    (hs : s.status.state ≠ .busy) :
    (s.inLen.toNat ≠ 8 → ∃ t, exec i s = .next t ∧ ErrorEntry .bounds s t) ∧
      (s.inLen.toNat = 8 → ∃ t, exec i s = .next t ∧ Accepted i t) := by
  rw [ne_eq, ← boundsOk_of_block hop]
  refine ⟨fun hb => ⟨_, exec_of_not_boundsOk hs hb, beginCommand_entry _ _ s⟩, fun hb => ?_⟩
  obtain ⟨t, ht, hacc, -⟩ := exec_of_checks hs hb (alignOk_of_block hop s)
  exact ⟨t, ht, hacc⟩

/-- The complete step of a block command: its one chunk is chunk 0. -/
theorem Accepted.block_completes {i : Instr} {s : State} (h : Accepted i s)
    (hop : opOf i = .encryptBlock ∨ opOf i = .decryptBlock) (hm : modeOf i ≠ some .cbc) :
    ∃ u t, afterChunks i s = .next u ∧ u.chain = s.chain ∧ exec i s = .next t ∧
      DoneWith 8 (byteOfBlock (resultBlock i s 0)) s t := by
  obtain ⟨u, hu, hchain⟩ := h.chain_of_not_cbc hm
  obtain ⟨t, ht, hdone⟩ := h.block_done hop
  refine ⟨u, t, hu, hchain, ht, hdone.congr fun a ha => ?_⟩
  rw [resultBytes, Nat.div_eq_of_lt ha, Nat.mod_eq_of_lt ha]

/-- Settles O26, by the start and the complete step of a block command. -/
theorem blockCommandsComplete : Obligations.BlockCommandsComplete := by
  refine fun s => ⟨fun i hi hs => blockStarts ?_ hs, fun h => h.block_completes (.inl rfl) nofun,
    fun h => h.block_completes (.inr rfl) nofun⟩
  rcases hi with rfl | rfl
  · exact .inl rfl
  · exact .inr rfl

/-- Settles O28: the strip's two outcomes, with the last result byte read as a block of DEC.ECB or DEC.CBC. -/
theorem stripTakesTheLastByteLiterally : Obligations.StripTakesTheLastByteLiterally := by
  intro i s h hop hskip
  dsimp only
  rw [← resultBlock_of_decrypt hop, ← resultBytes]
  refine ⟨h.strip_error hop hskip, fun hn hp => ?_⟩
  obtain ⟨t, ht, hdone⟩ := h.strip_done hop hskip hn hp
  exact ⟨t, ht, hdone.status, hdone.outLen⟩

/-! ### The lengths of the results (R138, R148) -/

theorem DoneWith.state {n : Nat} {out : Nat → Byte} {s t : State} (h : DoneWith n out s t) : t.status.state = .done := by
  rw [h.status]

theorem DoneWith.outLen_eq {n : Nat} {out : Nat → Byte} {s t : State} (h : DoneWith n out s t) {w : Word}
    (hw : n = w.toNat) : t.outLen = w :=
  BitVec.eq_of_toNat_eq (h.outLen.trans hw)

theorem Accepted.encrypt_length {i : Instr} {s : State} (h : Accepted i s) (hop : opOf i = .encrypt)
    (hskip : skipOf i = false) : s.nlen + s.padn = 8 * (s.nlen / 8) + 8 := by
  have hpad := h.padn_of_padded hop hskip
  omega

/-- A meaning has one next state, so what is known of some next state holds of the one at hand. -/
theorem next_spec {r : Result} {P : State → Prop} (h : ∃ u, r = .next u ∧ P u) {t : State} (ht : r = .next t) : P t := by
  obtain ⟨u, hu, hP⟩ := h
  cases hu.symm.trans ht
  exact hP

/-- Settles O29: each kind of command ends in the finish that R138, R144 and R145 give it. -/
theorem outputLengths : Obligations.OutputLengths := by
  intro i s t h ht
  rw [← h.nlen]
  refine ⟨fun hop => ?_, fun hop hskip => ?_, fun hop hskip hstate => ?_, fun hop => ?_⟩
  · have hdone := next_spec (h.encrypt_done hop) ht
    refine ⟨hdone.state, fun hskip => ?_, fun hskip => hdone.outLen_eq ?_⟩
    · rw [hdone.outLen, h.encrypt_length hop hskip]
      omega
    · rw [h.padn_of_skip hskip, ← h.nlen, Nat.add_zero]
  · have hdone := next_spec (h.decrypt_skip_done hop hskip) ht
    exact ⟨hdone.state, hdone.outLen_eq h.nlen⟩
  · rw [← resultBlock_of_decrypt hop, ← resultBytes]
    rcases next_spec (h.decrypt_strip hop hskip) ht with ⟨-, herr, -⟩ | ⟨-, -, hdone⟩
    · cases herr.state.symm.trans hstate
    · exact hdone.outLen
  · have hdone := next_spec (h.block_done hop) ht
    exact ⟨hdone.state, hdone.outLen_eq rfl⟩

/-! ### The round trip (R146) -/

/-- The decryption with the MODE, SKIP and IVEN of an encryption. -/
def Undoes (skip iv : Bool) (enc dec : Instr) : Prop :=
  (enc = .encEcb skip iv ∧ dec = .decEcb skip iv) ∨ (enc = .encCbc skip iv ∧ dec = .decCbc skip iv)

theorem Undoes.fields {skip iv : Bool} {enc dec : Instr} (h : Undoes skip iv enc dec) :
    opOf enc = .encrypt ∧ opOf dec = .decrypt ∧ skipOf enc = skip ∧ skipOf dec = skip ∧ modeOf dec = modeOf enc ∧
      ivSuppliedOf dec = ivSuppliedOf enc := by
  rcases h with ⟨rfl, rfl⟩ | ⟨rfl, rfl⟩ <;> exact ⟨rfl, rfl, rfl, rfl, rfl, rfl⟩

/-- CBC decryption of the ciphertext blocks gives the plaintext blocks back, whatever follows them. -/
theorem cbcPlain_of_cbcCipher {kw : KeyWords} {c : Block} {p q : Nat → Block} {b : Nat}
    (h : ∀ k ≤ b, q k = cbcCipher kw c p k) : cbcPlain kw c q b = p b := by
  cases b with
  | zero => rw [cbcPlain, h 0 le_rfl, cbcCipher, decipherBlock_encipherBlock, Block.xor_xor_cancel]
  | succ b =>
    rw [cbcPlain, h (b + 1) le_rfl, h b (Nat.le_succ b), cbcCipher, decipherBlock_encipherBlock, Block.xor_xor_cancel]

/-- Block by block, the decryption of what the encryption left is the padded message. -/
theorem Undoes.resultBlock_eq_chunkBlock {skip iv : Bool} {enc dec : Instr} (h : Undoes skip iv enc dec) {e d : State}
    (hkw : d.kw = e.kw) (hchain : modeOf enc = some .cbc → d.chain = e.chain) {b : Nat}
    (hin : ∀ k ≤ b, inBlock d k = resultBlock enc e k) : resultBlock dec d b = chunkBlock e b := by
  rcases h with ⟨rfl, rfl⟩ | ⟨rfl, rfl⟩
  · rw [resultBlock_decEcb, hin b le_rfl, resultBlock_encEcb, hkw, decipherBlock_encipherBlock]
  · rw [resultBlock_decCbc, hkw, hchain rfl]
    exact cbcPlain_of_cbcCipher fun k hk => (hin k hk).trans (resultBlock_encCbc skip iv e k)

theorem keyWordsOf_congr {s t : State} (h : t.key = s.key) : keyWordsOf t = keyWordsOf s := by
  simp only [keyWordsOf_eq, State.keyByte, h]

theorem initialChain_congr {i j : Instr} (hmi : modeOf i = some .cbc) (hmj : modeOf j = some .cbc)
    (hiv : ivSuppliedOf j = ivSuppliedOf i) {s t : State} (h : t.iv = s.iv) : initialChain j t = initialChain i s := by
  have hbytes : t.ivByte = s.ivByte := funext fun j => by rw [State.ivByte, State.ivByte, h]
  rw [initialChain, initialChain, if_pos hmi, if_pos hmj, hiv, ivBlockOf_eq, ivBlockOf_eq, hbytes]

/-- The host copied the result in `c` of a command of `s` to IN and IN_LEN of `u`, a machine with the same KEY, IV and
MSG_CAP as `s`. -/
structure CopiedBack (s c u : State) : Prop where
  capacity : u.capacity = s.capacity
  key : u.key = s.key
  iv : u.iv = s.iv
  inLen : u.inLen = c.outLen
  inBytes : ∀ a, a < c.outLen.toNat → u.inByte a = c.outByte a

/-- Acceptance on either side does not disturb the copy. -/
theorem CopiedBack.accepted {s c u e d : State} (h : CopiedBack s c u) (hse : OperandsKept s e)
    (hud : OperandsKept u d) : CopiedBack e c d where
  capacity := by rw [hud.capacity, hse.capacity, h.capacity]
  key := by rw [hud.key, hse.key, h.key]
  iv := by rw [hud.iv, hse.iv, h.iv]
  inLen := by rw [hud.inLen, h.inLen]
  inBytes a ha := by rw [hud.inBytes, h.inBytes a ha]

section

variable {skip iv : Bool} {enc dec : Instr} {e c d : State}
variable (hpair : Undoes skip iv enc dec) (he : Accepted enc e)
  (hdone : DoneWith (e.nlen + e.padn) (resultBytes enc e) e c) (hd : Accepted dec d) (hcopy : CopiedBack e c d)

include hdone hcopy in
/-- The ciphertext blocks the decryption reads are those the encryption left. -/
theorem inBlock_of_copied {b : Nat} (hb : 8 * b + 8 ≤ e.nlen + e.padn) : inBlock d b = resultBlock enc e b := by
  rw [inBlock, ← blockOfBytes_byteOfBlock (resultBlock enc e b)]
  refine blockOfBytes_congr fun j hj => ?_
  have hdiv : (8 * b + j) / 8 = b := by omega
  have hmod : (8 * b + j) % 8 = j := by omega
  rw [hcopy.inBytes _ (by rw [hdone.outLen]; omega), hdone.outByte (by omega), resultBytes, hdiv, hmod]

include hpair he hdone hd hcopy

/-- Byte by byte, the decryption leaves the padded message. -/
theorem resultBytes_of_copied {a : Nat} (ha : a < e.nlen + e.padn) :
    resultBytes dec d a = chunkByte e (a / 8) (a % 8) := by
  obtain ⟨-, -, -, -, hmode, hiv⟩ := hpair.fields
  have hkw : d.kw = e.kw := Option.some.inj (hd.kw.symm.trans ((keyWordsOf_congr hcopy.key).trans he.kw))
  have hchain (hm : modeOf enc = some .cbc) : d.chain = e.chain := by
    have hm' : modeOf dec = some .cbc := hmode.trans hm
    exact Option.some.inj
      ((hd.chain hm').symm.trans ((initialChain_congr hm hm' hiv hcopy.iv).trans (he.chain hm)))
  have hblock : resultBlock dec d (a / 8) = chunkBlock e (a / 8) := by
    have hsize := he.size
    exact hpair.resultBlock_eq_chunkBlock hkw hchain fun k hk => inBlock_of_copied hdone hcopy (by omega)
  rw [resultBytes, hblock, chunkBlock, byteOfBlock_blockOfBytes _ (Nat.mod_lt a (by decide))]

/-- The decryption ends in DONE with exactly the message: with SKIP there is no padding, and without it the last byte of
the padded message is the count to strip. -/
theorem decrypt_of_copied : ∃ p, exec dec d = .next p ∧ DoneWith e.nlen (resultBytes dec d) d p := by
  obtain ⟨hope, hopd, hskipe, hskipd, -, -⟩ := hpair.fields
  have hnlen : d.nlen = e.nlen + e.padn := by rw [hd.nlen, hcopy.inLen, hdone.outLen]
  cases skip with
  | true =>
    rw [he.padn_of_skip hskipe, Nat.add_zero] at hnlen
    exact hnlen ▸ hd.decrypt_skip_done hopd hskipd
  | false =>
    have hpad := he.padn_of_padded hope hskipe
    have hlast : (resultBytes dec d (d.nlen - 1)).toNat = e.padn := by
      rw [resultBytes_of_copied hpair he hdone hd hcopy (by omega), chunkByte_of_le (by omega), BitVec.toNat_ofNat]
      omega
    have hstrip := hd.strip_done hopd hskipd (by omega) (by omega)
    rwa [hlast, hnlen, Nat.add_sub_cancel] at hstrip

end

/-- Settles O32: the decryption reads back the ciphertext blocks, so it leaves the padded message, and it strips the count
the encryption appended. -/
theorem decryptionUndoesEncryption : Obligations.DecryptionUndoesEncryption := by
  intro enc dec skip iv hpair s hs hroom halign
  obtain ⟨hope, hopd, hskipe, -⟩ := Undoes.fields hpair
  have hfits : s.inLen.toNat ≤ s.msgCap := by
    cases skip with
    | true => exact (halign rfl).1
    | false => exact (Nat.le_add_right _ 8).trans (hroom rfl)
  obtain ⟨e, hexe, he, hse, -⟩ := exec_of_checks hs ((boundsOk_of_message (.inl hope)).2 hfits)
    ((alignOk_of_encrypt hope).2 fun hskip => (halign (hskipe.symm.trans hskip)).2)
  obtain ⟨c, hexc, hdone⟩ := he.encrypt_done hope
  refine ⟨e, c, hexe, hexc, hdone.state, fun u hu hcap hkey hiv hlen hbytes => ?_⟩
  have hnlen : e.nlen = s.inLen.toNat := by rw [he.nlen, hse.inLen]
  have hulen : u.inLen.toNat = e.nlen + e.padn := by rw [hlen, hdone.outLen]
  have hbounds : BoundsOk dec u := by
    rw [boundsOk_of_message (.inr hopd), hulen, hnlen, State.msgCap, hcap, ← State.msgCap]
    cases skip with
    | true => rwa [he.padn_of_skip hskipe]
    | false => exact (Nat.add_le_add_left he.padn_le _).trans (hroom rfl)
  have hwhole : AlignOk dec u := by
    rw [alignOk_of_decrypt hopd, hulen, ← he.size]
    exact Nat.mul_mod_right 8 e.nblk
  obtain ⟨d, hexd, hd, hud, -⟩ := exec_of_checks hu hbounds hwhole
  have hcopy : CopiedBack e c d := CopiedBack.accepted ⟨hcap, hkey, hiv, hlen, hbytes⟩ hse hud
  obtain ⟨p, hexp, hp⟩ := decrypt_of_copied hpair he hdone hd hcopy
  refine ⟨d, p, hexd, hexp, hp.state, hp.outLen_eq hnlen, fun a ha => ?_⟩
  rw [← hnlen] at ha
  have hindex : 8 * (a / 8) + a % 8 = a := Nat.div_add_mod a 8
  rw [hp.outByte ha, resultBytes_of_copied hpair he hdone hd hcopy (Nat.lt_add_right _ ha),
    chunkByte_of_lt (hindex.symm ▸ ha), hindex, hse.inBytes]

end Sys2Proof.Machine

/-! PROOF. The statements about errors, the bus and the interrupt (60_exceptions.md): error entry, the order of the checks,
BUSERR, dropped writes, and the four ways `irq` is cleared. -/

namespace Sys2Proof.Machine

/-! ### Errors (R171, R172) -/

/-- Settles O19: error entry, and the two registers it does not speak of. -/
theorem errorEntryKeepsOperandsAndDrop : Obligations.ErrorEntryKeepsOperandsAndDrop :=
  fun e s => ⟨raiseError_entry e s, by rw [raiseError_status], raiseError_cmd s e⟩

theorem writeCommand_of_decode_some {c : Byte} {i : Instr} (h : decode c = some i) (s : State) :
    writeCommand c s = exec i s := by
  rw [writeCommand, h]

/-- STATUS after the acceptance of a legal command, by the first check that fails. -/
theorem exec_status_by_check (i : Instr) {s : State} (hs : s.status.state ≠ .busy) :
    ∃ t, exec i s = .next t ∧
      (¬ BoundsOk i s → t.status = ⟨.error, .bounds, false⟩) ∧
      (BoundsOk i s → ¬ AlignOk i s → t.status = ⟨.error, .alignment, false⟩) ∧
      (BoundsOk i s → AlignOk i s → t.status = ⟨.busy, .none, false⟩) := by
  by_cases hb : BoundsOk i s
  · by_cases ha : AlignOk i s
    · obtain ⟨t, ht, -, -, hinit⟩ := exec_of_checks hs hb ha
      exact ⟨t, ht, absurd hb, fun _ => absurd ha, fun _ _ => initCommand_status hinit⟩
    · exact ⟨_, exec_of_not_alignOk hs hb ha, absurd hb, fun _ _ => rfl, fun _ h => absurd h ha⟩
  · exact ⟨_, exec_of_not_boundsOk hs hb, fun _ => rfl, fun h => absurd h hb, fun h => absurd h hb⟩

/-- Settles O20: a byte that does not decode raises ConfigurationError before any check, and one that decodes has its
checks in their order. -/
theorem checksAreMadeInPriorityOrder : Obligations.ChecksAreMadeInPriorityOrder := by
  intro s c rest he hs
  rw [step_cmd he hs]
  cases hc : decode c with
  | none => exact ⟨_, writeCommand_of_decode_none hc _, fun _ => rfl, nofun, nofun, nofun⟩
  | some i =>
    obtain ⟨t, ht, hbounds, halign, hbusy⟩ :=
      exec_status_by_check i (s := { s with events := rest, reply := some .ok }) hs
    rw [writeCommand_of_decode_some hc]
    refine ⟨t, ht, nofun, ?_, ?_, ?_⟩ <;> rintro _ ⟨⟩
    exacts [hbounds, halign, hbusy]

/-! ### BUSERR and dropped writes (R174, R175) -/

theorem hostRead_unmapped {a : Addr} {s : State} (h : locate s.msgCap a = none) : hostRead a s = s.answer .busErr := by
  rw [hostRead, h]

theorem hostWrite_unmapped {a : Addr} {s : State} (h : locate s.msgCap a = none) (d : Byte) :
    hostWrite a d s = .next (s.answer .busErr) := by
  rw [hostWrite, h]

/-- Settles O40: the addresses are those at which the map has no location. -/
theorem unmappedAddressesAnswerBusErr : Obligations.UnmappedAddressesAnswerBusErr := by
  intro s a d rest he ha
  have hl : locate s.msgCap a = none := locate_none.2 ha
  rcases he with he | he
  · rw [step_rd he, hostRead_unmapped (s := { s with events := rest }) hl]
    rfl
  · rw [step_wr he, hostWrite_unmapped (s := { s with events := rest }) hl]
    rfl

/-- Settles O45: at each of the addresses is a location whose writes are dropped while BUSY. -/
theorem writesWhileBusyAreDropped : Obligations.WritesWhileBusyAreDropped := by
  intro s a d rest he hb ha
  obtain ⟨-, loc, hl, hd⟩ := (dropsWrite_iff he).1 ⟨hb, a, d, rest, he, ha⟩
  rw [step_wr he, hostWrite_dropped (s := { s with events := rest }) hl hd hb]
  rfl

/-! ### The interrupt (R176) -/

/-- The states in which an enabled `irq` is asserted. -/
def EngineState.Pending (st : EngineState) : Prop := st = .done ∨ st = .error

theorem irq_eq_true_iff (s : State) : s.irq = true ↔ s.irqEn.getLsbD 0 = true ∧ s.status.state.Pending := by
  simp [State.irq, EngineState.Pending]

theorem irq_eq_false_iff (s : State) : s.irq = false ↔ s.irqEn.getLsbD 0 = false ∨ ¬ s.status.state.Pending := by
  rw [← Bool.not_eq_true, irq_eq_true_iff, not_and_or, Bool.not_eq_true]

theorem EngineState.Pending.ne_busy {st : EngineState} (h : st.Pending) : st ≠ .busy := by
  rintro rfl
  exact h.elim nofun nofun

theorem irqEnStored_getLsbD_zero (d : Byte) : (irqEnStored d).getLsbD 0 = d.getLsbD 0 := by
  simp [irqEnStored]

/-- A write to IRQ_EN is taken in every STATE. -/
theorem step_irqEn {s : State} {d : Byte} {rest : List Event} (he : s.events = .wr 0x001A#16 d :: rest) :
    step s = .next { s with irqEn := irqEnStored d, events := rest, reply := some .ok } := by
  have hl : locate s.msgCap 0x001A#16 = some .irqEn := locate_eq_irqEn.2 rfl
  rw [step_wr he, hostWrite_taken (s := { s with events := rest }) hl (.inr rfl)]
  rfl

/-- The enable is lost by a write of 0 to it or by RESET. -/
theorem enable_cleared_iff {s t : State} (h : step s = .next t) (hen : s.irqEn.getLsbD 0 = true) :
    t.irqEn.getLsbD 0 = false ↔
      (∃ d rest, s.events = .wr 0x001A#16 d :: rest ∧ d.getLsbD 0 = false) ∨ ∃ rest, s.events = .reset :: rest := by
  by_cases hreset : ∃ rest, s.events = .reset :: rest
  · obtain ⟨rest, he⟩ := hreset
    cases (step_reset he).symm.trans h
    exact iff_of_true (by simp [resetMachine_eq]) (.inr ⟨rest, he⟩)
  by_cases hwrite : ∃ d rest, s.events = .wr 0x001A#16 d :: rest
  · obtain ⟨d, rest, he⟩ := hwrite
    cases (step_irqEn he).symm.trans h
    rw [irqEnStored_getLsbD_zero]
    simp [he]
  · have hkept : t.irqEn = s.irqEn := ((step_hostRegisters h).2.resolve_left hreset).irqEn.resolve_right hwrite
    refine iff_of_false (by simp [hkept, hen]) ?_
    rintro (⟨d, rest, he, -⟩ | hr)
    · exact hwrite ⟨d, rest, he⟩
    · exact hreset hr

/-- DONE and ERROR are left by an acknowledge, by a command that starts, or by RESET; a command that fails keeps `irq`. -/
theorem not_pending_iff {s t : State} (h : step s = .next t) (hp : s.status.state.Pending) :
    ¬ t.status.state.Pending ↔
      (∃ d rest, s.events = .wr 0x0019#16 d :: rest) ∨
      (t.status.state = .busy ∧ ∃ c rest, s.events = .wr 0x0018#16 c :: rest) ∨
      ∃ rest, s.events = .reset :: rest := by
  cases step_status h with
  | kept hd hc ht =>
    rw [ht]
    refine iff_of_false (not_not_intro hp) ?_
    rintro (⟨d, rest, he⟩ | ⟨hb, -⟩ | hr)
    · exact hc (.inl ⟨hp.ne_busy, d, rest, .inr he⟩)
    · exact hp.ne_busy hb
    · exact hc (.inr hr)
  | failed c rest he hb hc e ht => simp [ht, he, EngineState.Pending]
  | started _ _ he _ _ ht | acknowledged _ _ he _ ht | reset _ he ht => simp [ht, he, EngineState.Pending]
  | dropped hd => exact absurd hd.1 hp.ne_busy
  | completed _ hb => exact absurd hb hp.ne_busy

/-- Settles O53: `irq` is lost with the enable or with DONE and ERROR, and each is lost by the steps the rule lists. -/
theorem interruptFollowsStateAndEnable : Obligations.InterruptFollowsStateAndEnable := by
  refine ⟨irq_eq_true_iff, fun s t h hirq => ?_⟩
  obtain ⟨hen, hp⟩ := (irq_eq_true_iff s).1 hirq
  rw [irq_eq_false_iff, enable_cleared_iff h hen, not_pending_iff h hp]
  grind

end Sys2Proof.Machine

/-! PROOF. The statement about RESET (70_reset_and_hazards.md R200, R201): what the state it leaves holds. -/

namespace Sys2Proof.Machine

theorem afterReset_key_getElem (c : Capacity) (d : Nat) (ev : List Event) {i : Nat} (h : i < 16) :
    (State.afterReset c d ev).key[i] = 0x00#8 :=
  Vector.getElem_replicate h

theorem afterReset_iv_getElem (c : Capacity) (d : Nat) (ev : List Event) {i : Nat} (h : i < 8) :
    (State.afterReset c d ev).iv[i] = 0x00#8 :=
  Vector.getElem_replicate h

theorem afterReset_status_byte (c : Capacity) (d : Nat) (ev : List Event) :
    (State.afterReset c d ev).status.byte = 0x00#8 := by
  rw [afterReset_status]
  decide

/-- RESET disables the interrupt, and IDLE would not assert it either (60_exceptions.md R176). -/
theorem afterReset_irq (c : Capacity) (d : Nat) (ev : List Event) : (State.afterReset c d ev).irq = false :=
  (irq_eq_false_iff _).2 (.inl (by simp))

/-- IN reads from the first draw of a RESET, OUT from the second and the internal registers from the third. -/
theorem resetMachine_internals (s : State) : InternalsDrawn s (resetMachine s) :=
  ⟨s.drawn + 2, ⟨by simp, by simp [resetMachine_eq], rfl⟩, by simp [resetMachine_eq]⟩

/-- Settles O54: STATE is not looked at, so what RESET leaves is `resetMachine`, field by field. -/
theorem resetSetsTheResetValues : Obligations.ResetSetsTheResetValues := by
  intro s rest he
  exact ⟨resetMachine { s with events := rest }, step_reset he,
    fun _ hi => afterReset_key_getElem _ _ _ hi, fun _ hi => afterReset_iv_getElem _ _ _ hi,
    rfl, rfl, afterReset_status_byte _ _ _, rfl, rfl, rfl, rfl, rfl, Nat.le_refl _, Nat.le_succ _,
    resetMachine_internals { s with events := rest }, afterReset_irq _ _ _, rfl, rfl⟩

end Sys2Proof.Machine

/-! PROOF. The invariant of the machine: it holds at reset, every step of a state that meets it goes on to a state that
meets it, and it leaves ten STATUS bytes (10_state.md, the paragraph after R19). -/

namespace Sys2Proof.Machine

/-! ### The invariant at reset -/

theorem afterReset_inv (c : Capacity) (d : Nat) (ev : List Event) : (State.afterReset c d ev).Inv where
  inWf := rfl
  outWf := rfl
  inRange _ h := nomatch h
  outRange _ := iff_of_false nofun (Nat.not_lt_zero _)
  outFits := Nat.zero_le _
  errIffError := by simp
  idleNoDrop _ := rfl
  earlyErrorNoDrop _ _ := rfl
  configurationIff := nofun
  doneLegal := nofun
  errorNoOutput _ := rfl
  irqReserved := BitVec.zero_and
  rndRange := withUnspecInternals_rnd_le (State.cleared c d ev) _
  nlenRange := withUnspecInternals_nlen_le (State.cleared c d ev) _
  padnRange := withUnspecInternals_padn_le (State.cleared c d ev) _
  blkRange := withUnspecInternals_blk_le (State.cleared c d ev) _
  nblkRange := withUnspecInternals_nblk_le (State.cleared c d ev) _
  busyAccepted := nofun
  drawsMade := by simp

/-- Settles O59: the model starts in a state that RESET leaves. -/
theorem resetMeetsTheInvariant : Obligations.ResetMeetsTheInvariant :=
  afterReset_inv Config.capacity 0 []

/-! ### The port -/

/-- A transaction that moves the schedule, the answer and the count of draws only. -/
theorem State.Inv.withPort {s : State} (h : s.Inv) (ev : List Event) (r : Option Reply) {n : Nat} (hn : s.drawn ≤ n) :
    State.Inv { s with events := ev, reply := r, drawn := n } :=
  { h with
    busyAccepted := fun hb => (h.busyAccepted hb).imp fun _ ha => { ha with }
    drawsMade := ⟨h.drawsMade.1.trans_le hn, h.drawsMade.2.1.trans_le hn, h.drawsMade.2.2⟩ }

theorem hostRead_inv {s : State} (h : s.Inv) (a : Addr) : (hostRead a s).Inv := by
  obtain ⟨r, n, hr, hn⟩ := hostRead_kept a s
  rw [hr]
  exact h.withPort s.events (some r) hn

/-- A dropped write sets WDROP, which is legal while BUSY. -/
theorem dropWrite_inv {s : State} (h : s.Inv) (hb : s.status.state = .busy) : (dropWrite s).Inv :=
  { h with
    idleNoDrop := fun hi => nomatch hb.symm.trans hi
    earlyErrorNoDrop := fun he => nomatch hb.symm.trans he
    busyAccepted := fun hb => (h.busyAccepted hb).imp fun _ ha => { ha with } }

/-! ### The two ends of a command -/

/-- The part of the invariant that a command carries through: the engine writes neither IN nor IRQ_EN (R30). -/
structure InputInv (s : State) : Prop where
  inWf : s.inMem.wf = true
  inRange : ∀ a, (s.inMem.find a).isSome = true → a < s.msgCap
  irqReserved : s.irqEn &&& 0xFE = 0
  inDraw : s.inDraw < s.drawn

theorem State.Inv.input {s : State} (h : s.Inv) : InputInv s :=
  ⟨h.inWf, h.inRange, h.irqReserved, h.drawsMade.1⟩

theorem InputInv.beginCommand {s : State} (h : InputInv s) (c : Byte) : InputInv (beginCommand c s) :=
  { h with inDraw := Nat.lt_succ_of_lt h.inDraw }

theorem InputInv.engine {s t : State} (h : InputInv s) (hk : EngineKept s t) : InputInv t where
  inWf := hk.inMem ▸ h.inWf
  inRange := by rw [hk.inMem, hk.msgCap]; exact h.inRange
  irqReserved := hk.irqEn ▸ h.irqReserved
  inDraw := by rw [hk.inDraw, hk.drawn]; exact h.inDraw

/-- Error entry (R171): `e` fits the byte in CMD, and only a PaddingError can find WDROP set. -/
theorem raiseError_inv {e : ErrorCause} {s : State} (h : InputInv s) (he : e ≠ .none)
    (hw : e ≠ .padding → s.status.wdrop = false) (hc : e = .configuration ↔ decode s.cmd = none) :
    (raiseError e s).Inv := by
  obtain ⟨hrnd, hnlen, hpadn, hblk, hnblk⟩ := raiseError_ranges s e
  exact {
    inWf := h.inWf
    outWf := rfl
    inRange := h.inRange
    outRange := fun _ => iff_of_false nofun (Nat.not_lt_zero _)
    outFits := Nat.zero_le _
    errIffError := iff_of_true he rfl
    idleNoDrop := nofun
    earlyErrorNoDrop := fun _ => hw
    configurationIff := fun _ => hc
    doneLegal := nofun
    errorNoOutput := fun _ => rfl
    irqReserved := h.irqReserved
    rndRange := hrnd
    nlenRange := hnlen
    padnRange := hpadn
    blkRange := hblk
    nblkRange := hnblk
    busyAccepted := nofun
    drawsMade := ⟨Nat.lt_add_right 2 h.inDraw, Nat.lt_add_of_pos_right Nat.two_pos, h.inDraw.ne⟩ }

/-- A successful finish: the first `n` bytes of OUT are the result and stay listed. -/
theorem finishDone_inv {n : Nat} {s : State} (h : InputInv s) (hwf : s.outMem.wf = true)
    (hlisted : ∀ a, a < n → (s.outMem.find a).isSome = true) (hn : n ≤ s.outCap)
    (hc : (decode s.cmd).isSome = true) (hdraw : s.outDraw < s.drawn ∧ s.inDraw ≠ s.outDraw) :
    (finishDone n s).Inv := by
  obtain ⟨hrnd, hnlen, hpadn, hblk, hnblk⟩ := finishDone_ranges s n
  have hlen : (finishDone n s).outLen.toNat = n := by
    have hcap := msgCap_le s
    rw [outCap_eq] at hn
    rw [finishDone_outLen, BitVec.toNat_ofNat]
    omega
  exact {
    inWf := h.inWf
    outWf := Memory.wf_truncate hwf n
    inRange := h.inRange
    outRange := fun a => by
      rw [hlen, finishDone_outMem, Memory.find_truncate]
      split
      · next ha => exact iff_of_true (hlisted a ha) ha
      · next ha => exact iff_of_false nofun ha
    outFits := hlen.trans_le hn
    errIffError := iff_of_false (fun hne => hne rfl) nofun
    idleNoDrop := nofun
    earlyErrorNoDrop := nofun
    configurationIff := nofun
    doneLegal := fun _ => hc
    errorNoOutput := nofun
    irqReserved := h.irqReserved
    rndRange := hrnd
    nlenRange := hnlen
    padnRange := hpadn
    blkRange := hblk
    nblkRange := hnblk
    busyAccepted := nofun
    drawsMade := ⟨Nat.lt_succ_of_lt h.inDraw, Nat.lt_succ_of_lt hdraw.1, hdraw.2⟩ }

/-! ### The ENGINE's turn -/

/-- Every finish is a PaddingError, or DONE with no more output than the chunks stored (R138, R139, R144, R145). -/
theorem finishOf_cases {i : Instr} {s u : State} (h : Accepted i s) (hk : EngineKept s u) :
    finishOf i u = raiseError .padding u ∨ ∃ n, n ≤ 8 * s.nblk ∧ finishOf i u = finishDone n u := by
  have hsize := h.size
  have hnlen : u.nlen = s.nlen := hk.nlen
  have decrypts (skip : Bool) : finishDecrypt skip u = raiseError .padding u ∨
      ∃ n, n ≤ 8 * s.nblk ∧ finishDecrypt skip u = finishDone n u := by
    cases skip with
    | true => exact .inr ⟨u.nlen, by omega, rfl⟩
    | false => exact (strip_cases u).imp And.right fun ⟨_, _, hstrip⟩ => ⟨_, by omega, hstrip⟩
  cases i with
  | encEcb | encCbc => exact .inr ⟨u.nlen + u.padn, by rw [hk.nlen, hk.padn, hsize], rfl⟩
  | decEcb skip | decCbc skip => exact decrypts skip
  | encb => exact .inr ⟨8, by rw [(h.block_nlen (.inl rfl)).2], rfl⟩
  | decb => exact .inr ⟨8, by rw [(h.block_nlen (.inr rfl)).2], rfl⟩

/-- The complete step of an accepted command: the chunks list every byte below 8 * NBLK, then the finish. -/
theorem exec_accepted_inv {i : Instr} {s : State} (h : s.Inv) (ha : Accepted i s) : ∃ t, exec i s = .next t ∧ t.Inv := by
  obtain ⟨u, -, hexec, hd⟩ := ha.chunks_done
  have hinput : InputInv u := h.input.engine hd.kept
  have hdecode : decode u.cmd = some i := by rw [hd.kept.cmd, ha.cmd, decode_encode]
  refine ⟨_, hexec, ?_⟩
  rcases finishOf_cases ha hd.kept with hfinish | ⟨n, hn, hfinish⟩
  · rw [hfinish]
    exact raiseError_inv hinput nofun (fun hne => absurd rfl hne) (iff_of_false nofun (by simp [hdecode]))
  · rw [hfinish]
    refine finishDone_inv hinput (hd.wf h.outWf) (fun a hlt => ?_) ?_ (by simp [hdecode]) ?_
    · simp [hd.find (hlt.trans_le hn)]
    · rw [outCap_eq, hd.kept.msgCap, ← outCap_eq]
      exact hn.trans ha.size_le
    · rw [hd.kept.outDraw, hd.kept.drawn, hd.kept.inDraw]
      exact h.drawsMade.2

theorem engineTurn_inv {s : State} (h : s.Inv) : ∃ t, engineTurn s = .next t ∧ t.Inv := by
  by_cases hb : s.status.state = .busy
  · obtain ⟨i, ha⟩ := h.busyAccepted hb
    rw [engineTurn_busy hb (i := i) (by rw [ha.opc, decode_encode])]
    exact exec_accepted_inv h ha
  · exact ⟨s, engineTurn_idle hb, h⟩

/-! ### Host writes -/

/-- A command that starts: BUSY, accepted, and the rest as the first lines of acceptance leave it (R130, R135). -/
theorem initCommand_inv {i : Instr} {s t : State} (h : s.Inv) (ha : Accepted i t) (hk : OperandsKept s t)
    (ht : initCommand i s.inLen.toNat (beginCommand (encode i) s) = some t) : t.Inv := by
  obtain ⟨c, hc⟩ := initialChain_isSome i (beginCommand (encode i) s)
  have hinput := h.input.beginCommand (encode i)
  have hcap : t.msgCap = s.msgCap := by rw [State.msgCap, hk.capacity, State.msgCap]
  have hsize := ha.size_le
  rw [outCap_eq, hcap] at hsize
  have hstate := ha.state
  cases (initCommand_eq (keyWordsOf_eq _) hc).symm.trans ht
  exact {
    inWf := hinput.inWf
    outWf := rfl
    inRange := hinput.inRange
    outRange := fun _ => iff_of_false nofun (Nat.not_lt_zero _)
    outFits := Nat.zero_le _
    errIffError := iff_of_false (fun hne => hne rfl) nofun
    idleNoDrop := nofun
    earlyErrorNoDrop := nofun
    configurationIff := nofun
    doneLegal := nofun
    errorNoOutput := nofun
    irqReserved := hinput.irqReserved
    rndRange := h.rndRange
    nlenRange := ha.nlen_le
    padnRange := ha.padn_le
    blkRange := Nat.zero_le _
    nblkRange := by rw [hcap]; omega
    busyAccepted := fun _ => ⟨i, ha⟩
    drawsMade := ⟨hinput.inDraw, Nat.lt_succ_self _, h.drawsMade.1.ne⟩ }

/-- A write to CMD while not BUSY: the error of a check, or a command that starts. -/
theorem writeCommand_inv {s : State} (h : s.Inv) (hb : s.status.state ≠ .busy) (c : Byte) :
    ∃ t, writeCommand c s = .next t ∧ t.Inv := by
  have hinput (b : Byte) : InputInv (beginCommand b s) := h.input.beginCommand b
  rcases writeCommand_cases c hb with ⟨hc, hw⟩ | ⟨i, -, hw⟩
  · exact ⟨_, hw, raiseError_inv (hinput c) nofun (fun _ => rfl) (iff_of_true rfl hc)⟩
  · have legal : decode (encode i) ≠ none := by simp [decode_encode]
    rw [hw]
    rcases accept_cases i s with ⟨-, ht⟩ | ⟨-, -, ht⟩ | ⟨-, -, t, ht, ha, hk, hinit⟩
    · exact ⟨_, ht, raiseError_inv (hinput _) nofun (fun _ => rfl) (iff_of_false nofun legal)⟩
    · exact ⟨_, ht, raiseError_inv (hinput _) nofun (fun _ => rfl) (iff_of_false nofun legal)⟩
    · exact ⟨t, ht, initCommand_inv h ha hk hinit⟩

/-- A write to a byte of IN lists it, and it lies in IN. -/
theorem store_inv {s : State} (h : s.Inv) (hb : s.status.state ≠ .busy) {a : Nat} (ha : a < s.msgCap) (d : Byte) :
    State.Inv { s with inMem := s.inMem.store a d } :=
  { h with
    inWf := Memory.wf_store h.inWf a d
    inRange := fun j hj => by
      by_cases hja : j = a
      · exact hja ▸ ha
      · rw [Memory.find_store_ne _ _ hja] at hj
        exact h.inRange j hj
    busyAccepted := fun hbusy => absurd hbusy hb }

theorem irqEnStored_reserved (d : Byte) : irqEnStored d &&& 0xFE = 0 := by
  rw [irqEnStored, BitVec.and_assoc]
  exact BitVec.and_zero

/-- A write that takes effect, by its location. -/
theorem writeLocation_inv {s : State} (h : s.Inv) (d : Byte) {loc : Location} (hex : loc.exists s.msgCap)
    (hb : loc.droppedWhileBusy = true → s.status.state ≠ .busy) : ∃ t, writeLocation d s loc = .next t ∧ t.Inv := by
  cases loc with
  | key | iv | inLen => exact ⟨_, rfl, { h with busyAccepted := fun hbusy => absurd hbusy (hb rfl) }⟩
  | cmd => exact writeCommand_inv h (hb rfl) d
  | status =>
    exact ⟨_, rfl, { h with
      errIffError := iff_of_false (fun hne => hne rfl) nofun
      idleNoDrop := fun _ => rfl
      earlyErrorNoDrop := nofun
      configurationIff := nofun
      doneLegal := nofun
      errorNoOutput := nofun
      busyAccepted := nofun }⟩
  | irqEn =>
    exact ⟨_, rfl, { h with
      irqReserved := irqEnStored_reserved d
      busyAccepted := fun hbusy => (h.busyAccepted hbusy).imp fun _ ha => { ha with } }⟩
  | inBuf => exact ⟨_, rfl, store_inv h (hb rfl) hex d⟩
  | outLen | outBuf => exact ⟨s, rfl, h⟩

theorem hostWrite_inv {s : State} (h : s.Inv) (a : Addr) (d : Byte) : ∃ t, hostWrite a d s = .next t ∧ t.Inv := by
  have answered (r : Reply) : (s.answer r).Inv := h.withPort s.events (some r) le_rfl
  rcases hostWrite_cases a d s with ⟨-, hw⟩ | ⟨_, -, -, hb, hw⟩ | ⟨loc, hl, hb, hw⟩
  · exact ⟨_, hw, answered .busErr⟩
  · exact ⟨_, hw, dropWrite_inv (answered .ok) hb⟩
  · rw [hw]
    exact writeLocation_inv (answered .ok) d (locate_some hl).2 hb

/-! ### The step -/

/-- From a state that meets the invariant every step goes on, to a state that meets it. -/
theorem step_inv {s : State} (h : s.Inv) : ∃ t, step s = .next t ∧ t.Inv := by
  have taken (rest : List Event) : State.Inv { s with events := rest } := h.withPort rest s.reply le_rfl
  rcases step_kinds s with ⟨rest, -, hs⟩ | ⟨a, rest, -, hs⟩ | ⟨a, d, rest, -, hs⟩ | ⟨rest, -, hs⟩
  · rw [hs]
    exact engineTurn_inv (taken rest)
  · exact ⟨_, hs, hostRead_inv (taken rest) a⟩
  · rw [hs]
    exact hostWrite_inv (taken rest) a d
  · exact ⟨_, hs, afterReset_inv s.capacity s.drawn rest⟩

/-- Settles O58, agent by agent: the ENGINE's turn, a read, a write and RESET. -/
theorem stepKeepsTheInvariant : Obligations.StepKeepsTheInvariant := fun _ _ h => next_spec (step_inv h)

/-- Settles O60: the step that keeps the invariant exists. -/
theorem invariantStatesNeverStop : Obligations.InvariantStatesNeverStop :=
  fun _ h => (step_inv h).imp fun _ => And.left

/-! ### The STATUS bytes -/

/-- Settles O50: ERR goes with ERROR only, and WDROP with BUSY, DONE and a PaddingError only. -/
theorem onlyTenStatusBytesOccur : Obligations.OnlyTenStatusBytesOccur := by
  intro s h
  obtain ⟨-, -, -, -, -, herr, hidle, hearly⟩ := h
  generalize s.status = st at herr hidle hearly ⊢
  obtain ⟨state, err, wdrop⟩ := st
  have clean (hne : state ≠ .error) : err = .none := not_not.1 fun h => hne (herr.1 h)
  cases state with
  | idle =>
    cases hidle rfl
    cases clean nofun
    decide
  | busy | done =>
    cases clean nofun
    cases wdrop <;> decide
  | error =>
    cases err with
    | none => exact absurd rfl (herr.2 rfl)
    | configuration | alignment | bounds =>
      cases hearly rfl nofun
      decide
    | padding => cases wdrop <;> decide

end Sys2Proof.Machine

/-! PROOF. What the end of a command depends on (10_state.md R28, 20_memory.md R51 to R56): only KEY, IV, IN_LEN and the
bytes of IN below NLEN, whatever the internal registers held and whatever the host does while BUSY. -/

namespace Sys2Proof.Machine

/-! ### The end of any command -/

/-- The count the strip takes from the result (R139): that of the last byte for a decryption without SKIP, where an empty
message counts as one byte short, and 0 for any other command. -/
def stripCount (i : Instr) (s : State) : Nat :=
  if opOf i = .decrypt ∧ skipOf i = false then
    if s.nlen = 0 then 1 else (resultBytes i s (s.nlen - 1)).toNat
  else 0

theorem stripCount_of_strips {i : Instr} (hop : opOf i = .decrypt) (hskip : skipOf i = false) (s : State) :
    stripCount i s = if s.nlen = 0 then 1 else (resultBytes i s (s.nlen - 1)).toNat :=
  if_pos ⟨hop, hskip⟩

theorem stripCount_of_not {i : Instr} (h : ¬ (opOf i = .decrypt ∧ skipOf i = false)) (s : State) : stripCount i s = 0 :=
  if_neg h

/-- How an accepted command ends: PaddingError where the count is greater than what the chunks left, else DONE with the
rest of it. -/
inductive Completed (i : Instr) (s t : State) : Prop
  | padding (hlt : s.nlen + s.padn < stripCount i s) (he : ErrorEntry .padding s t)
      (hst : t.status = ⟨.error, .padding, s.status.wdrop⟩) (hcmd : t.cmd = s.cmd)
  | done (hle : stripCount i s ≤ s.nlen + s.padn)
      (hd : DoneWith (s.nlen + s.padn - stripCount i s) (resultBytes i s) s t)

/-- A command that strips nothing ends in DONE with all it has stored. -/
theorem Accepted.unstripped_done {i : Instr} {s : State} (h : Accepted i s)
    (hi : ¬ (opOf i = .decrypt ∧ skipOf i = false)) :
    ∃ t, exec i s = .next t ∧ DoneWith (s.nlen + s.padn) (resultBytes i s) s t := by
  have padn_zero (hop : opOf i ≠ .encrypt) : s.padn = 0 := by rw [h.padn, padCount_of_not_encrypt hop]
  cases hop : opOf i with
  | encrypt => exact h.encrypt_done hop
  | decrypt =>
    rw [padn_zero (by simp [hop]), Nat.add_zero]
    exact h.decrypt_skip_done hop (by simpa [hop] using hi)
  | encryptBlock =>
    rw [padn_zero (by simp [hop]), (h.block_nlen (.inl hop)).1]
    exact h.block_done (.inl hop)
  | decryptBlock =>
    rw [padn_zero (by simp [hop]), (h.block_nlen (.inr hop)).1]
    exact h.block_done (.inr hop)

theorem Accepted.completed {i : Instr} {s : State} (h : Accepted i s) : ∃ t, exec i s = .next t ∧ Completed i s t := by
  by_cases hi : opOf i = .decrypt ∧ skipOf i = false
  · obtain ⟨hop, hskip⟩ := hi
    have hcount := stripCount_of_strips hop hskip s
    have hpadn : s.padn = 0 := by rw [h.padn, padCount_of_not_encrypt (by simp [hop])]
    obtain ⟨t, ht, ⟨hp, he, hst, hcmd⟩ | ⟨hn, hp, hd⟩⟩ := h.decrypt_strip hop hskip
    · refine ⟨t, ht, .padding ?_ he hst hcmd⟩
      rw [hcount]
      split <;> omega
    · rw [if_neg hn] at hcount
      refine ⟨t, ht, .done (by omega) ?_⟩
      rwa [hcount, hpadn]
  · obtain ⟨t, ht, hd⟩ := h.unstripped_done hi
    have hcount := stripCount_of_not hi s
    exact ⟨t, ht, .done (by omega) (by rwa [hcount])⟩

/-- A completion writes no operand, keeps CMD and WDROP, and ends in DONE or ERROR. -/
structure CompletionFrame (s t : State) : Prop where
  kept : OperandsKept s t
  cmd : t.cmd = s.cmd
  wdrop : t.status.wdrop = s.status.wdrop
  ended : t.status.state = .done ∨ t.status.state = .error

theorem Completed.frame {i : Instr} {s t : State} (h : Completed i s t) : CompletionFrame s t := by
  cases h with
  | padding _ he hst hcmd => exact ⟨he.kept, hcmd, by rw [hst], .inr he.state⟩
  | done _ hd => exact ⟨hd.kept, hd.cmd, by rw [hd.status], .inl hd.state⟩

/-! ### Two accepted states with the same work -/

/-- The states agree on all that the chunks of `i` read: the key words, in CBC the chaining state, the counts, and IN
below NLEN (R56). -/
structure SameWork (i : Instr) (s t : State) : Prop where
  kw : t.kw = s.kw
  chain : modeOf i = some .cbc → t.chain = s.chain
  nlen : t.nlen = s.nlen
  padn : t.padn = s.padn
  inBytes : ∀ a, a < s.nlen → t.inByte a = s.inByte a

/-- Acceptance makes the work from the operand registers, so the same operands are the same work. -/
theorem sameWork_of_operands {i : Instr} {s t : State} (hs : Accepted i s) (ht : Accepted i t) (hkey : t.key = s.key)
    (hiv : t.iv = s.iv) (hlen : t.inLen = s.inLen) (hin : ∀ a, a < s.nlen → t.inByte a = s.inByte a) :
    SameWork i s t := by
  have hnlen : t.nlen = s.nlen := by rw [ht.nlen, hs.nlen, hlen]
  refine ⟨Option.some.inj (ht.kw.symm.trans ((keyWordsOf_congr hkey).trans hs.kw)), fun hm => ?_, hnlen,
    by rw [ht.padn, hs.padn, hnlen], hin⟩
  exact Option.some.inj ((ht.chain hm).symm.trans ((initialChain_congr hm hm rfl hiv).trans (hs.chain hm)))

theorem SameWork.chunkBlock {i : Instr} {s t : State} (h : SameWork i s t) (b : Nat) :
    chunkBlock t b = chunkBlock s b := by
  refine blockOfBytes_congr fun j _ => ?_
  by_cases hj : 8 * b + j < s.nlen
  · rw [chunkByte_of_lt hj, chunkByte_of_lt (h.nlen ▸ hj), h.inBytes _ hj]
  · rw [chunkByte_of_le (Nat.not_lt.1 hj), chunkByte_of_le (h.nlen ▸ Nat.not_lt.1 hj), h.padn]

theorem SameWork.inBlock {i : Instr} {s t : State} (h : SameWork i s t) {b : Nat} (hb : 8 * b + 8 ≤ s.nlen) :
    inBlock t b = inBlock s b :=
  blockOfBytes_congr fun _ _ => h.inBytes _ (by omega)

/-- The plaintext of a CBC block depends on the ciphertext blocks up to it. -/
theorem cbcPlain_congr {kw : KeyWords} {c : Block} {q q' : Nat → Block} {b : Nat} (h : ∀ k ≤ b, q' k = q k) :
    cbcPlain kw c q' b = cbcPlain kw c q b := by
  cases b with
  | zero => rw [cbcPlain, cbcPlain, h 0 le_rfl]
  | succ b => rw [cbcPlain, cbcPlain, h (b + 1) le_rfl, h b (Nat.le_succ b)]

/-- The same work has the same result, chunk by chunk. -/
theorem SameWork.resultBlock {i : Instr} {s t : State} (h : SameWork i s t) (hs : Accepted i s) {b : Nat}
    (hb : b < s.nblk) : resultBlock i t b = resultBlock i s b := by
  have in_le (hop : opOf i ≠ .encrypt) {k : Nat} (hk : k ≤ b) : 8 * k + 8 ≤ s.nlen := by
    have hsize := hs.size_of_not_encrypt hop
    omega
  cases i with
  | encEcb => rw [resultBlock_encEcb, resultBlock_encEcb, h.kw, h.chunkBlock]
  | encCbc => rw [resultBlock_encCbc, resultBlock_encCbc, h.kw, h.chain rfl, funext h.chunkBlock]
  | decEcb => rw [resultBlock_decEcb, resultBlock_decEcb, h.kw, h.inBlock (in_le nofun le_rfl)]
  | decCbc =>
    rw [resultBlock_decCbc, resultBlock_decCbc, h.kw, h.chain rfl]
    exact cbcPlain_congr fun k hk => h.inBlock (in_le nofun hk)
  | encb | decb =>
    simp only [Machine.resultBlock, chunkOut, h.kw, h.inBlock (in_le nofun le_rfl)]

theorem SameWork.resultBytes {i : Instr} {s t : State} (h : SameWork i s t) (hs : Accepted i s) {a : Nat}
    (ha : a < s.nlen + s.padn) : resultBytes i t a = resultBytes i s a := by
  have hsize := hs.size
  rw [Machine.resultBytes, Machine.resultBytes, h.resultBlock hs (by omega)]

theorem SameWork.stripCount {i : Instr} {s t : State} (h : SameWork i s t) (hs : Accepted i s) :
    stripCount i t = stripCount i s := by
  rw [Machine.stripCount, Machine.stripCount, h.nlen]
  by_cases hn : s.nlen = 0
  · rw [if_pos hn, if_pos hn]
  · rw [h.resultBytes hs (by omega)]

/-- The host sees the same STATE, ERR, OUT_LEN and result. -/
structure SameOutcome (t u : State) : Prop where
  state : u.status.state = t.status.state
  err : u.status.err = t.status.err
  outLen : u.outLen = t.outLen
  outBytes : ∀ a, a < t.outLen.toNat → u.outByte a = t.outByte a

/-- With WDROP the same too, the host reads the same STATUS. -/
theorem SameOutcome.status {t u : State} (h : SameOutcome t u) (hw : u.status.wdrop = t.status.wdrop) :
    u.status = t.status := by
  show Status.mk u.status.state u.status.err u.status.wdrop = t.status
  rw [h.state, h.err, hw]

/-- The same work ends the same. -/
theorem SameWork.outcome {i : Instr} {s t u v : State} (h : SameWork i s t) (hs : Accepted i s) (hu : Completed i s u)
    (hv : Completed i t v) : SameOutcome u v := by
  have hcount := h.stripCount hs
  have hnlen := h.nlen
  have hpadn := h.padn
  cases hu with
  | padding hlt he =>
    cases hv with
    | padding _ he' =>
      exact ⟨he'.state.trans he.state.symm, he'.err.trans he.err.symm, he'.outLen.trans he.outLen.symm,
        fun a ha => absurd ha (by simp [he.outLen])⟩
    | done hle => omega
  | done hle hd =>
    cases hv with
    | padding hlt => omega
    | done _ hd' =>
      rw [hnlen, hpadn, hcount] at hd'
      refine ⟨hd'.state.trans hd.state.symm, by rw [hd'.status, hd.status], hd'.outLen_eq hd.outLen.symm, fun a ha => ?_⟩
      rw [hd.outLen] at ha
      rw [hd'.outByte ha, hd.outByte ha, h.resultBytes hs (by omega)]

/-! ### IN beyond NLEN (R56) -/

/-- Settles O33: the operands below NLEN are the same, so the work is, and WDROP is not written. -/
theorem bytesBeyondTheLengthDoNotMatter : Obligations.BytesBeyondTheLengthDoNotMatter := by
  intro i s m d hs hin
  have hs' : Accepted i { s with inMem := m, inDraw := d } := { hs with }
  have hwork : SameWork i s { s with inMem := m, inDraw := d } := sameWork_of_operands hs hs' rfl rfl rfl hin
  obtain ⟨t, ht, hct⟩ := hs.completed
  obtain ⟨u, hu, hcu⟩ := hs'.completed
  have hsame := hwork.outcome hs hct hcu
  exact ⟨t, u, ht, hu, hsame.status (hcu.frame.wdrop.trans hct.frame.wdrop.symm), hsame.outLen, hsame.outBytes⟩

/-! ### The internal registers (R28, R117) -/

theorem OperandsKept.symm {s t : State} (h : OperandsKept s t) : OperandsKept t s :=
  ⟨h.key.symm, h.iv.symm, h.irqEn.symm, h.inLen.symm, fun a => (h.inBytes a).symm, h.capacity.symm, h.events.symm,
    h.reply.symm⟩

theorem OperandsKept.boundsOk_iff {i : Instr} {s t : State} (h : OperandsKept s t) : BoundsOk i t ↔ BoundsOk i s := by
  rw [BoundsOk, BoundsOk, h.inLen, State.msgCap, h.capacity, ← State.msgCap]

theorem OperandsKept.alignOk_iff {i : Instr} {s t : State} (h : OperandsKept s t) : AlignOk i t ↔ AlignOk i s := by
  rw [AlignOk, AlignOk, h.inLen]

/-- Two accepted states on the same operands, both just accepted, are the same to the host. -/
theorem sameToHost_of_started {i : Instr} {s t : State} (hs : Accepted i s) (ht : Accepted i t) (hk : OperandsKept s t)
    (hst : t.status = s.status) : SameToHost s t where
  kept := hk
  cmd := ht.cmd.trans hs.cmd.symm
  status := hst
  outLen := ht.outLen.trans hs.outLen.symm
  outBytes a ha := absurd ha (by simp [hs.outLen])

/-- The same error on the same operands. -/
theorem sameToHost_of_failed {s t : State} (e : ErrorCause) (c : Byte) (hk : OperandsKept s t) :
    SameToHost (raiseError e (beginCommand c s)) (raiseError e (beginCommand c t)) where
  kept := (beginCommand_entry e c s).kept.symm.trans (hk.trans (beginCommand_entry e c t).kept)
  cmd := rfl
  status := rfl
  outLen := rfl
  outBytes _ ha := absurd ha (Nat.not_lt_zero _)

/-- The two machines do the same for the host with `i`: at acceptance, and if it starts, at completion. -/
def RunsAlike (i : Instr) (s t : State) : Prop :=
  ∃ s₁ t₁, exec i s = .next s₁ ∧ exec i t = .next t₁ ∧ SameToHost s₁ t₁ ∧
    (s₁.status.state = .busy → ∃ s₂ t₂, exec i s₁ = .next s₂ ∧ exec i t₁ = .next t₂ ∧ SameToHost s₂ t₂)

theorem completions_sameToHost {i : Instr} {s t : State} (hs : Accepted i s) (ht : Accepted i t) (h : SameToHost s t) :
    ∃ u v, exec i s = .next u ∧ exec i t = .next v ∧ SameToHost u v := by
  have hk := h.kept
  have hwork : SameWork i s t := sameWork_of_operands hs ht hk.key hk.iv hk.inLen fun a _ => hk.inBytes a
  obtain ⟨u, hu, hcu⟩ := hs.completed
  obtain ⟨v, hv, hcv⟩ := ht.completed
  have hsame := hwork.outcome hs hcu hcv
  exact ⟨u, v, hu, hv, {
    kept := hcu.frame.kept.symm.trans (hk.trans hcv.frame.kept)
    cmd := by rw [hcv.frame.cmd, hcu.frame.cmd, h.cmd]
    status := hsame.status (by rw [hcv.frame.wdrop, hcu.frame.wdrop, h.status])
    outLen := hsame.outLen
    outBytes := hsame.outBytes }⟩

/-- The operand registers alone decide: acceptance and completion read nothing else that the host could see change. -/
theorem runsAlike_of_operands {i : Instr} {s t : State} (hs : s.status.state ≠ .busy) (ht : t.status.state ≠ .busy)
    (hk : OperandsKept s t) : RunsAlike i s t := by
  by_cases hb : BoundsOk i s
  · have hb' : BoundsOk i t := hk.boundsOk_iff.2 hb
    by_cases ha : AlignOk i s
    · obtain ⟨s₁, hs₁, hacc, hks, hinit⟩ := exec_of_checks hs hb ha
      obtain ⟨t₁, ht₁, hacc', hkt, hinit'⟩ := exec_of_checks ht hb' (hk.alignOk_iff.2 ha)
      have hsame : SameToHost s₁ t₁ := sameToHost_of_started hacc hacc' (hks.symm.trans (hk.trans hkt))
        ((initCommand_status hinit').trans (initCommand_status hinit).symm)
      exact ⟨s₁, t₁, hs₁, ht₁, hsame, fun _ => completions_sameToHost hacc hacc' hsame⟩
    · exact ⟨_, _, exec_of_not_alignOk hs hb ha, exec_of_not_alignOk ht hb' (hk.alignOk_iff.not.2 ha),
        sameToHost_of_failed _ _ hk, nofun⟩
  · exact ⟨_, _, exec_of_not_boundsOk hs hb, exec_of_not_boundsOk ht (hk.boundsOk_iff.not.2 hb),
      sameToHost_of_failed _ _ hk, nofun⟩

/-- Settles O34: the internal registers are no operands. -/
theorem internalRegistersDoNotMatter : Obligations.InternalRegistersDoNotMatter :=
  fun _ _ _ _ _ _ _ _ _ _ _ _ _ hs => runsAlike_of_operands hs hs ⟨rfl, rfl, rfl, rfl, fun _ => rfl, rfl, rfl, rfl⟩

/-! ### Host transactions while BUSY (R51, R54, R213) -/

/-- What a host transaction while BUSY leaves as it was: the operand registers. -/
structure CommandOperandsKept (s t : State) : Prop where
  key : t.key = s.key
  iv : t.iv = s.iv
  inLen : t.inLen = s.inLen
  inBytes : ∀ a, t.inByte a = s.inByte a

theorem CommandOperandsKept.trans {s t u : State} (h : CommandOperandsKept s t) (g : CommandOperandsKept t u) :
    CommandOperandsKept s u :=
  ⟨g.key.trans h.key, g.iv.trans h.iv, g.inLen.trans h.inLen, fun a => (g.inBytes a).trans (h.inBytes a)⟩

/-- Everything a write can do while BUSY: BUSERR, dropped, or the IRQ_EN bit, and nothing for a result. -/
theorem hostWrite_busy {s : State} (hb : s.status.state = .busy) (a : Addr) (d : Byte) :
    ∃ r e w, hostWrite a d s =
      .next { s with reply := some r, irqEn := e, status := ⟨s.status.state, s.status.err, w⟩ } := by
  rcases hostWrite_cases a d s with ⟨-, hw⟩ | ⟨_, -, -, -, hw⟩ | ⟨loc, -, htaken, hw⟩
  · exact ⟨_, _, _, hw⟩
  · exact ⟨_, _, _, hw⟩
  · rw [hw]
    cases loc with
    | irqEn | outLen | outBuf => exact ⟨_, _, _, rfl⟩
    | key | iv | cmd | status | inLen | inBuf => exact absurd hb (htaken rfl)

/-- A host transaction while BUSY goes on, and leaves the command accepted and its operands as they were. -/
theorem Accepted.host_step {i : Instr} {s : State} (h : Accepted i s) {e : Event} {rest : List Event}
    (he : s.events = e :: rest) (hhost : e.isHost = true) :
    ∃ t, step s = .next t ∧ t.events = rest ∧ Accepted i t ∧ CommandOperandsKept s t := by
  cases e with
  | rd a =>
    obtain ⟨r, n, hr, -⟩ := hostRead_kept a { s with events := rest }
    exact ⟨_, (step_rd he).trans (congrArg _ hr), rfl, { h with }, rfl, rfl, rfl, fun _ => rfl⟩
  | wr a d =>
    obtain ⟨r, e, w, hw⟩ := hostWrite_busy (s := { s with events := rest }) h.state a d
    exact ⟨_, (step_wr he).trans hw, rfl, { h with }, rfl, rfl, rfl, fun _ => rfl⟩
  | engine | reset => cases hhost

/-- The host transactions at the head of the schedule, run one after the other. -/
theorem Accepted.host_run {i : Instr} {between rest : List Event} (hhost : ∀ e ∈ between, e.isHost = true) {s : State}
    (h : Accepted i s) (he : s.events = between ++ rest) :
    ∃ t, Sys2Proof.core.run between.length s = .next t ∧ t.events = rest ∧ Accepted i t ∧ CommandOperandsKept s t := by
  induction between generalizing s with
  | nil => exact ⟨s, rfl, he, h, rfl, rfl, rfl, fun _ => rfl⟩
  | cons e between ih =>
    obtain ⟨u, hu, heu, hau, hku⟩ := h.host_step he (hhost e (by simp))
    obtain ⟨t, ht, het, hat, hkt⟩ := ih (fun e' he' => hhost e' (by simp [he'])) hau heu
    exact ⟨t, (run_succ_of_next (M := Sys2Proof.core) hu).trans ht, het, hat, hku.trans hkt⟩

/-- After the host transactions the ENGINE's turn, scheduled or not, completes the command on the state they left. -/
theorem Accepted.run_to_completion {i : Instr} {between turn rest : List Event}
    (hhost : ∀ e ∈ between, e.isHost = true) (hturn : turn = .engine :: rest ∨ (turn = [] ∧ rest = [])) {s : State}
    (h : Accepted i s) (he : s.events = between ++ turn) :
    ∃ u t, Sys2Proof.core.run (between.length + 1) s = .next t ∧ u.events = rest ∧ Accepted i u ∧
      CommandOperandsKept s u ∧ Completed i u t := by
  obtain ⟨u, hu, heu, hau, hku⟩ := h.host_run hhost he
  have hlast : Accepted i { u with events := rest } := { hau with }
  obtain ⟨t, ht, hc⟩ := hlast.completed
  have hstep : step u = exec i { u with events := rest } :=
    (step_turn (heu ▸ hturn)).trans (engineTurn_busy hlast.state (by rw [hlast.opc, decode_encode]))
  exact ⟨_, t, (run_succ hu).trans (hstep.trans ht), rfl, hlast, { hku with }, hc⟩

/-- Settles O35: the state the ENGINE finds holds the operands that `s` held, so it does the same work. -/
theorem hostTransactionsWhileBusyDoNotChangeTheResult : Obligations.HostTransactionsWhileBusyDoNotChangeTheResult := by
  intro i s between rest hs hhost he
  obtain ⟨v, t, ht, hev, hv, hk, hct⟩ := hs.run_to_completion hhost (.inl rfl) he
  obtain ⟨u, hu, hcu⟩ := hs.completed
  have hwork : SameWork i s v := sameWork_of_operands hs hv hk.key hk.iv hk.inLen fun a _ => hk.inBytes a
  obtain ⟨hstate, herr, hlen, hbytes⟩ := hwork.outcome hs hcu hct
  have hframe := hct.frame
  have hend := hframe.kept
  exact ⟨t, u, ht, hu, hend.events.trans hev, hstate, herr, hlen, hbytes, hend.key.trans hk.key, hend.iv.trans hk.iv,
    by rw [hframe.cmd, hv.cmd, hs.cmd], hend.inLen.trans hk.inLen, fun a => (hend.inBytes a).trans (hk.inBytes a)⟩

/-- Settles O36: with the schedule at its end it is the ENGINE's turn. -/
theorem busyPeriodEnds : Obligations.BusyPeriodEnds := by
  intro i s hs hhost
  obtain ⟨v, t, ht, hev, -, -, hct⟩ :=
    hs.run_to_completion hhost (turn := []) (rest := []) (.inr ⟨rfl, rfl⟩) (List.append_nil _).symm
  exact ⟨t, ht, hct.frame.kept.events.trans hev, hct.frame.ended⟩

/-! ### Block commands and ECB (R144, R145) -/

/-- A chunk that lies within the message is a block of IN. -/
theorem chunkBlock_eq_inBlock {s : State} {b : Nat} (h : 8 * b + 8 ≤ s.nlen) : chunkBlock s b = inBlock s b :=
  blockOfBytes_congr fun _ _ => chunkByte_of_lt (by omega)

/-- The block command and the ECB command with SKIP that does the same. -/
def SameOnOneBlock (iv : Bool) (i j : Instr) : Prop :=
  (i = .encb ∧ j = .encEcb true iv) ∨ (i = .decb ∧ j = .decEcb true iv)

theorem SameOnOneBlock.fields {iv : Bool} {i j : Instr} (h : SameOnOneBlock iv i j) :
    (opOf i = .encryptBlock ∨ opOf i = .decryptBlock) ∧ (opOf j = .encrypt ∨ opOf j = .decrypt) ∧ skipOf j = true ∧
      padCount i = padCount j := by
  rcases h with ⟨rfl, rfl⟩ | ⟨rfl, rfl⟩
  · exact ⟨.inl rfl, .inl rfl, rfl, rfl⟩
  · exact ⟨.inr rfl, .inr rfl, rfl, rfl⟩

/-- On the same eight bytes and key words the two compute the same block. -/
theorem SameOnOneBlock.resultBlock {iv : Bool} {i j : Instr} (h : SameOnOneBlock iv i j) {a b : State}
    (hkw : a.kw = b.kw) (hlen : b.nlen = 8) (hin : inBlock a 0 = inBlock b 0) : resultBlock j b 0 = resultBlock i a 0 := by
  rcases h with ⟨rfl, rfl⟩ | ⟨rfl, rfl⟩
  · rw [resultBlock_encEcb, chunkBlock_eq_inBlock hlen.ge, ← hkw, ← hin]
    rfl
  · rw [resultBlock_decEcb, ← hkw, ← hin]
    rfl

/-- Settles O31: both commands start on eight bytes and store the one block. -/
theorem blockCommandsAreEcbOnOneBlock : Obligations.BlockCommandsAreEcbOnOneBlock := by
  intro s iv hs hlen i j hij
  obtain ⟨hopi, hopj, hskip, hpad⟩ := SameOnOneBlock.fields hij
  have hboundsj : BoundsOk j s := (boundsOk_of_message hopj).2 (hlen.trans_le (eight_le_msgCap s))
  have halignj : AlignOk j s := ⟨fun _ => by rw [hlen], fun _ _ => by rw [hlen]⟩
  obtain ⟨a, hexa, ha, hka, hinita⟩ := exec_of_checks hs ((boundsOk_of_block hopi).2 hlen) (alignOk_of_block hopi s)
  obtain ⟨b, hexb, hb, hkb, hinitb⟩ := exec_of_checks hs hboundsj halignj
  obtain ⟨hkw, hnlen, -⟩ := accepted_same_message ha hb hka hkb hpad
  have hsize : b.nlen = 8 := hnlen ▸ (ha.block_nlen hopi).1
  obtain ⟨c, hexc, hc⟩ := ha.block_done hopi
  obtain ⟨d, hexd, hd⟩ := hb.unstripped_done (by simp [hskip])
  rw [hb.padn_of_skip hskip, hsize] at hd
  have hstatus : c.status = ⟨.done, .none, false⟩ := by rw [hc.status, initCommand_status hinita]; rfl
  have hsame : d.status = c.status := by rw [hstatus, hd.status, initCommand_status hinitb]; rfl
  have hblock : resultBlock j b 0 = resultBlock i a 0 := SameOnOneBlock.resultBlock hij hkw hsize
    (blockOfBytes_congr fun k _ => by rw [hka.inBytes, hkb.inBytes])
  refine ⟨a, b, c, d, hexa, hexc, hexb, hexd, hstatus, hsame, hd.outLen_eq hc.outLen.symm, hc.outLen_eq rfl, fun k hk => ?_⟩
  rw [hd.outByte hk, hc.outByte hk, resultBytes, resultBytes, Nat.div_eq_of_lt hk, hblock]

end Sys2Proof.Machine

/-! PROOF. The statements about the host port (20_memory.md): what each read answers, what each write stores, which writes
and turns run a command, and that results stay until the next one. -/

namespace Sys2Proof.Machine

/-! ### The command and its completion as steps (43_block_driver.md section 1) -/

/-- Settles O37: the write is taken, and its effect is the decoded command. -/
theorem stepRunsTheWrittenCommand : Obligations.StepRunsTheWrittenCommand := by
  intro s c i rest he hs hc _
  rw [step_cmd he hs, writeCommand_of_decode_some hc]

/-- Settles O38, by the ENGINE's turn while BUSY and while not. -/
theorem stepCompletesTheAcceptedCommand : Obligations.StepCompletesTheAcceptedCommand := by
  refine fun s rest he => ⟨fun i hb hi => ?_, fun hb => ?_⟩
  · rw [step_turn he, engineTurn_busy (s := { s with events := rest }) hb hi]
  · rw [step_turn he, engineTurn_idle (s := { s with events := rest }) hb]

theorem decode_of_decodeTableWord {w : Nat} {i : Instr} (h : decodeTableWord 8 w = some i) :
    decode (BitVec.ofNat 8 (w % 2 ^ 8)) = some i := by
  have hbyte : w % 2 ^ 8 < 256 := Nat.mod_lt w (by decide)
  rwa [decodeTableWord, if_pos hbyte] at h

theorem scheduleCommand_status (c : Byte) (s : State) :
    (scheduleCommand c s).status = if s.status.state = .busy then ⟨.idle, .none, false⟩ else s.status := by
  simp [scheduleCommand, State.isBusy]

/-- A scheduled command can be accepted, whatever the machine did before. -/
theorem scheduleCommand_not_busy (c : Byte) (s : State) : (scheduleCommand c s).status.state ≠ .busy := by
  rw [scheduleCommand_status]
  split
  · exact nofun
  · next hb => exact hb

/-- Settles O39: the fetched byte is the write at the head of the schedule. -/
theorem fetchWordRunsNext : Obligations.FetchWordRunsNext := by
  intro s w i hi
  rw [State.withFetchWord, step_cmd (rest := s.events) rfl (scheduleCommand_not_busy _ s),
    writeCommand_of_decode_some (decode_of_decodeTableWord hi), ← scheduleCommand_status (BitVec.ofNat 8 (w % 2 ^ 8))]
  rfl

/-! ### Reads (R45) -/

/-- Byte `j` of a length register, counted from the low end (R46). -/
theorem byteOfWord_eq_shift (w : Word) (j : Nat) : byteOfWord w j = (w >>> (8 * (3 - j))).setWidth 8 := by
  rw [byteOfWord, Nat.mul_sub]

/-- A read at the address of a location answers with its value, outside a BUSY period or where it is no result. -/
theorem step_read {s : State} {a : Addr} {rest : List Event} (he : s.events = .rd a :: rest) {loc : Location}
    (ha : a.toNat = loc.addr) (hex : loc.exists s.msgCap) (hb : s.status.state ≠ .busy ∨ loc.isResult = false) :
    step s = .next { s with events := rest, reply := some (.data (readLocation s loc)) } := by
  have hl : locate s.msgCap a = some loc := (locate_eq_some (msgCap_le_window s)).2 ⟨ha, hex⟩
  rw [step_rd he, hostRead_register (s := { s with events := rest }) hl hb]
  cases loc <;> rfl

/-- Settles O41, location by location. -/
theorem readsReturnTheRegisters : Obligations.ReadsReturnTheRegisters := by
  intro s a rest he
  refine ⟨fun i hi ha => ?_, fun i hi ha => ?_, fun ha => ?_, fun ha => ?_, fun ha => ?_, fun i hi ha => ?_,
    fun i hi ha => ?_, fun hb i hi ha => ?_, fun hb i hi ha => ?_⟩
  · exact step_read he (loc := .key ⟨i, hi⟩) (ha.trans (Nat.zero_add i)) trivial (.inr rfl)
  · exact step_read he (loc := .iv ⟨i, hi⟩) ha trivial (.inr rfl)
  · exact step_read he (loc := .cmd) ha trivial (.inr rfl)
  · exact step_read he (loc := .status) ha trivial (.inr rfl)
  · exact step_read he (loc := .irqEn) ha trivial (.inr rfl)
  · rw [← byteOfWord_eq_shift]
    exact step_read he (loc := .inLen ⟨i, hi⟩) ha trivial (.inr rfl)
  · exact step_read he (loc := .inBuf i) ha hi (.inr rfl)
  · rw [← byteOfWord_eq_shift]
    exact step_read he (loc := .outLen ⟨i, hi⟩) ha trivial (.inl hb)
  · exact step_read he (loc := .outBuf i) ha hi (.inl hb)

theorem hostRead_result_busy {a : Addr} {s : State} {loc : Location} (hl : locate s.msgCap a = some loc)
    (hr : loc.isResult = true) (hb : s.status.state = .busy) : hostRead a s = answerUnspec s := by
  simp [hostRead, hl, hr, State.isBusy, hb]

/-- Settles O42: the address is that of a result. -/
theorem busyReadsOfResultsAreDraws : Obligations.BusyReadsOfResultsAreDraws := by
  intro s a rest he hb ha
  obtain ⟨loc, hl, hr⟩ := (exists_locate_isResult (msgCap_le_window s)).2 ha
  rw [step_rd he, hostRead_result_busy (s := { s with events := rest }) hl hr hb]
  rfl

/-- Settles O43: a read answers, or makes a draw while BUSY. -/
theorem readsHaveNoSideEffects : Obligations.ReadsHaveNoSideEffects := by
  intro s a rest he
  rw [step_rd he]
  rcases hostRead_cases a { s with events := rest } with ⟨r, h⟩ | ⟨hb, h⟩
  · exact ⟨r, s.drawn, congrArg _ h, fun _ => rfl⟩
  · exact ⟨_, _, congrArg _ h, fun hn => absurd hb hn⟩

/-! ### Writes (R44) -/

/-- A write at the address of a location has its effect while not BUSY. -/
theorem step_write {s : State} {a : Addr} {d : Byte} {rest : List Event} (he : s.events = .wr a d :: rest)
    {loc : Location} (ha : a.toNat = loc.addr) (hex : loc.exists s.msgCap) (hb : s.status.state ≠ .busy) :
    step s = writeLocation d { s with events := rest, reply := some .ok } loc := by
  have hl : locate s.msgCap a = some loc := (locate_eq_some (msgCap_le_window s)).2 ⟨ha, hex⟩
  rw [step_wr he, hostWrite_taken (s := { s with events := rest }) hl (.inl hb)]
  rfl

theorem byteOfWord_setByteOfWord (w : Word) (d : Byte) {i j : Nat} (hj : j < 4) :
    byteOfWord (setByteOfWord w i d) j = if j = i then d else byteOfWord w j := by
  rw [setByteOfWord]
  interval_cases j <;> simp [eq_comm]

/-- Settles O44: KEY and IV by their effect, IN_LEN byte by byte of the word, IN by the store. -/
theorem writesStoreTheirByte : Obligations.WritesStoreTheirByte := by
  refine fun s a d rest he hb => ⟨fun i hi ha => ?_, fun i hi ha => ?_, fun i hi ha => ?_, fun i hi ha => ?_⟩
  · exact step_write he (loc := .key ⟨i, hi⟩) (ha.trans (Nat.zero_add i)) trivial hb
  · exact step_write he (loc := .iv ⟨i, hi⟩) ha trivial hb
  · refine ⟨setByteOfWord s.inLen i d, step_write he (loc := .inLen ⟨i, hi⟩) ha trivial hb, fun j hj => ?_⟩
    rw [← byteOfWord_eq_shift, ← byteOfWord_eq_shift, byteOfWord_setByteOfWord _ _ hj]
  · exact ⟨_, step_write he (loc := .inBuf i) ha hi hb, inByte_store s i d⟩

/-- Settles O47: the stored byte is bit 0 of the written one. -/
theorem irqEnStoresOnlyItsBit : Obligations.IrqEnStoresOnlyItsBit := by
  refine fun s d rest he => ⟨_, step_irqEn he, irqEnStored_getLsbD_zero d, fun k hk => ?_⟩
  have hmask : (0x01 : Byte).getLsbD k = false := by
    simp [BitVec.getLsbD_one]
    omega
  rw [irqEnStored, BitVec.getLsbD_and, hmask, Bool.and_false]

/-! ### Results (R206) -/

/-- A write to any location but CMD leaves OUT and OUT_LEN. -/
theorem writeLocation_results {d : Byte} {s t : State} {loc : Location} (hc : loc ≠ .cmd)
    (h : writeLocation d s loc = .next t) : t.outLen = s.outLen ∧ ∀ a, t.outByte a = s.outByte a := by
  cases loc with
  | cmd => exact absurd rfl hc
  | key | iv | status | irqEn | inLen | outLen | inBuf | outBuf => cases h; exact ⟨rfl, fun _ => rfl⟩

/-- Settles O57, case by case of what a step can be. -/
theorem resultsStayUntilTheNextCommand : Obligations.ResultsStayUntilTheNextCommand := by
  intro s t h
  cases step_next_cases h with
  | completion rest _ he hb => exact .inr (.inr (.inl ⟨hb, he.symm.imp And.left fun he => ⟨rest, he⟩⟩))
  | reset rest he => exact .inr (.inr (.inr ⟨rest, he⟩))
  | taken a d rest loc he hl hb ht =>
    by_cases hcmd : loc = .cmd
    · subst hcmd
      cases locate_eq_cmd.1 hl
      exact .inr (.inl ⟨hb rfl, d, rest, he⟩)
    · exact .inl (writeLocation_results (s := { s with events := rest, reply := some .ok }) hcmd ht)
  | idleTurn _ _ _ ht | read _ _ _ _ _ ht | busErr _ _ _ _ _ ht | dropped _ _ _ _ _ _ _ _ ht =>
    subst ht
    exact .inl ⟨rfl, fun _ => rfl⟩

end Sys2Proof.Machine

/-! PROOF. The statements about single values: the command byte and its decoder, big-endian words, the mode operations, the
STATUS byte and the reset state. -/

namespace Sys2Proof.Machine

/-! ### Bytes that are no command (30_encoding.md R65, R66) -/

theorem bitVec_two_cases : ∀ x : BitVec 2, x = 0b00#2 ∨ x = 0b01#2 ∨ x = 0b10#2 ∨ x = 0b11#2 := by decide

/-- CMD[5:2] is MODE, SKIP and IVEN together. -/
theorem blockFields_of_zero {c : Byte} (h : c.extractLsb' 2 4 = 0b0000#4) :
    (fieldsOf c).mode = 0b00#2 ∧ (fieldsOf c).skip = false ∧ (fieldsOf c).iven = false := by
  have bit (j : Nat) (hj : j < 4) : c.getLsbD (2 + j) = false := by
    simpa [hj] using congrArg (BitVec.getLsbD · j) h
  refine ⟨BitVec.eq_of_getLsbD_eq fun j hj => ?_, bit 2 (by omega), bit 3 (by omega)⟩
  simp [fieldsOf, hj, bit j (by omega)]

/-- A byte whose fields are legal decodes: by OP, and for ENCRYPT and DECRYPT by MODE. -/
theorem exists_decode_of_legal {c : Byte} (h : ¬ IllegalByte c) : ∃ i, decode c = some i := by
  simp only [IllegalByte, not_or, not_and, not_not] at h
  obtain ⟨hrsv, hmode, hblock⟩ := h
  have decodes (i : Instr) (hop : (fieldsOf c).op = i.fields.op) (hmode : (fieldsOf c).mode = i.fields.mode)
      (hskip : (fieldsOf c).skip = i.fields.skip) (hiven : (fieldsOf c).iven = i.fields.iven)
      (hclear : i.fields.rsv = 0b00#2) : ∃ i, decode c = some i := by
    refine ⟨i, decode_eq_some_iff.2 ?_⟩
    have hrsv : (fieldsOf c).rsv = i.fields.rsv := hrsv.trans hclear.symm
    show Fields.mk (fieldsOf c).op (fieldsOf c).mode (fieldsOf c).skip (fieldsOf c).iven (fieldsOf c).rsv = i.fields
    rw [hop, hmode, hskip, hiven, hrsv]
  have message (hop : c.extractLsb' 0 2 = 0b00#2 ∨ c.extractLsb' 0 2 = 0b01#2) :
      c.extractLsb' 2 2 = 0b00#2 ∨ c.extractLsb' 2 2 = 0b01#2 := by
    rcases bitVec_two_cases (c.extractLsb' 2 2) with hm | hm | hm | hm
    · exact .inl hm
    · exact .inr hm
    · exact absurd hm (hmode hop).1
    · exact absurd hm (hmode hop).2
  rcases bitVec_two_cases (c.extractLsb' 0 2) with hop | hop | hop | hop
  · rcases message (.inl hop) with hm | hm
    · exact decodes (.encEcb (fieldsOf c).skip (fieldsOf c).iven) hop hm rfl rfl rfl
    · exact decodes (.encCbc (fieldsOf c).skip (fieldsOf c).iven) hop hm rfl rfl rfl
  · rcases message (.inr hop) with hm | hm
    · exact decodes (.decEcb (fieldsOf c).skip (fieldsOf c).iven) hop hm rfl rfl rfl
    · exact decodes (.decCbc (fieldsOf c).skip (fieldsOf c).iven) hop hm rfl rfl rfl
  · obtain ⟨hm, hskip, hiven⟩ := blockFields_of_zero (hblock (.inl hop))
    exact decodes .encb hop hm hskip hiven rfl
  · obtain ⟨hm, hskip, hiven⟩ := blockFields_of_zero (hblock (.inr hop))
    exact decodes .decb hop hm hskip hiven rfl

/-- Settles O2: the two directions of the round trip, and the illegal bytes by their fields. -/
theorem encodeAndDecodeAgree : Obligations.EncodeAndDecodeAgree := by
  refine ⟨fun i _ => decode_encode i, fun _ _ => encode_of_decode, fun c => ⟨fun hc => ?_, IllegalByte.decode_eq_none⟩⟩
  by_contra hlegal
  obtain ⟨i, hi⟩ := exists_decode_of_legal hlegal
  simp [hc] at hi

/-! ### Big-endian words (20_memory.md R46) -/

/-- A byte in a lane of a word keeps all its bits. -/
theorem toNat_setWidth_shiftLeft (b : Byte) {k : Nat} (hk : k ≤ 24) :
    (b.setWidth 32 <<< k).toNat = b.toNat <<< k := by
  have hfits : b.toNat <<< k < 2 ^ 32 :=
    (Nat.shiftLeft_lt b.isLt).trans_le (Nat.pow_le_pow_right (by decide) (by omega))
  rw [BitVec.toNat_shiftLeft, BitVec.toNat_setWidth_of_le (by decide), Nat.mod_eq_of_lt hfits]

/-- Bytes are put below one another, the first on top. -/
theorem toNat_wordOfBytes (b0 b1 b2 b3 : Byte) :
    (wordOfBytes b0 b1 b2 b3).toNat = ((b0.toNat <<< 8 ||| b1.toNat) <<< 8 ||| b2.toNat) <<< 8 ||| b3.toNat := by
  rw [wordOfBytes, BitVec.toNat_or, BitVec.toNat_or, BitVec.toNat_or, toNat_setWidth_shiftLeft b0 (by omega),
    toNat_setWidth_shiftLeft b1 (by omega), toNat_setWidth_shiftLeft b2 (by omega),
    BitVec.toNat_setWidth_of_le (by decide)]
  simp only [Nat.shiftLeft_or_distrib, ← Nat.shiftLeft_add]

/-- Settles O6: a byte put below others shifts them by eight bits. -/
theorem wordsAreBigEndian : Obligations.WordsAreBigEndian := by
  intro b0 b1 b2 b3
  have below (n : Nat) (b : Byte) : n <<< 8 ||| b.toNat = n * 2 ^ 8 + b.toNat := by
    rw [← Nat.shiftLeft_add_eq_or_of_lt b.isLt, Nat.shiftLeft_eq]
  rw [toNat_wordOfBytes, below, below, below]
  omega

/-! ### The mode operations (42_modes.md R111 to R114) -/

/-- Settles O11, by the equations of the engine and of CBC. -/
theorem modeOperationsTransformTheBlock : Obligations.ModeOperationsTransformTheBlock :=
  fun s => ⟨encipherV_eq s, decipherV_eq s, cbcEncrypt_eq s, cbcDecrypt_eq s⟩

/-- Settles O12: decipher undoes encipher, and the second XOR with CHAIN the first. -/
theorem cbcDecryptUndoesCbcEncrypt : Obligations.CbcDecryptUndoesCbcEncrypt := by
  intro s t hkw hchain hv
  refine ⟨?_, ?_⟩
  · rw [cbcDecrypt_v, hkw, hchain, hv, cbcEncrypt_v, decipherBlock_encipherBlock, Block.xor_xor_cancel]
  · rw [cbcDecrypt_chain, hv, cbcEncrypt_v, cbcEncrypt_chain]

/-! ### The STATUS byte (10_state.md R15, 60_exceptions.md R170) -/

/-- STATE as the two bits of its field. -/
def EngineState.field : EngineState → BitVec 2
  | .idle => 0b00#2
  | .busy => 0b01#2
  | .done => 0b10#2
  | .error => 0b11#2

/-- ERR as the three bits of its field. -/
def ErrorCause.field : ErrorCause → BitVec 3
  | .none => 0#3
  | .configuration => 1#3
  | .alignment => 2#3
  | .bounds => 3#3
  | .padding => 4#3

theorem EngineState.code_eq_field (st : EngineState) : st.code = st.field.setWidth 8 := by
  cases st <;> rfl

theorem ErrorCause.code_eq_field (e : ErrorCause) : e.code = e.field.setWidth 8 := by
  cases e <;> rfl

/-- Settles O49: whatever the bits of the fields are, each is read back from its place. -/
theorem statusByteHoldsItsFields : Obligations.StatusByteHoldsItsFields := by
  intro st
  have packed : ∀ (x : BitVec 2) (y : BitVec 3) (w : Bool),
      let b : Byte := x.setWidth 8 ||| (y.setWidth 8 <<< 2) ||| (if w then 0x20 else 0)
      b.extractLsb' 0 2 = x ∧ b.extractLsb' 2 3 = y ∧ b.getLsbD 5 = w ∧ b.extractLsb' 6 2 = 0b00#2 := by
    decide
  rw [Status.byte, EngineState.code_eq_field, ErrorCause.code_eq_field]
  exact packed st.state.field st.err.field st.wdrop

/-! ### The reset state (70_reset_and_hazards.md R200) -/

/-- Settles O55: the reset state is one that RESET leaves. -/
theorem resetStateHasTheResetValues : Obligations.ResetStateHasTheResetValues :=
  ⟨fun _ hi => afterReset_key_getElem _ _ _ hi, fun _ hi => afterReset_iv_getElem _ _ _ hi, rfl,
    afterReset_status_byte _ _ _, rfl, rfl, rfl, afterReset_irq _ _ _⟩

end Sys2Proof.Machine
